-- ==== Sys2Proof/Config.lean ====
section
/-! DEFINITION. What an implementation fixes, and the one free value of the model. -/

namespace Sys2Proof

/-- The least legal operand width: OPCODE uses bits 7:0 of CMD (00_scope.md R5, 30_encoding.md R84). -/
def Config.minWidth : Nat := 8

/-- The operand width of `State.reset`. DESIGN CHOICE (log 1): the spec leaves W open and writes its vectors
at W = 16. The width of any other state is that state's own field. -/
def Config.resetWidth : Nat := 16

/-- FREE VALUE (log 5): how many host turns come before the next engine turn, for the n-th time the order of the
two agents is left open. The spec allows every interleaving (00_scope.md R11, I13, I14) in which the engine is
weakly fair (70_reset_and_hazards.md R199), so the number is any, and finite. -/
opaque Config.hostBurst : Nat → Nat

/-- The base address of the register window: the platform's parameter, invisible to the block and read by no rule
(20_memory.md R50, I12; log 15). -/
opaque Config.base : Nat

end Sys2Proof
end

