-- ==== Sys2Proof/Syntax.lean ====
section
/-! DEFINITION. The commands of the block, one constructor per row of the opcode table (30_encoding.md R85). -/

namespace Sys2Proof

/-- A command. None carries an operand: EGCD and MODINV read A and B as they stand when the command is accepted
(30_encoding.md R83). -/
inductive Instr where
  /-- No operation (41_control.md R144). -/
  | nop
  /-- Extended greatest common divisor of A and B into G, X, Y (40_euclid.md R106). -/
  | egcd
  /-- Inverse of A modulo B into R (40_euclid.md R109). -/
  | modinv
  /-- Clear DONE, ERR and OVR (41_control.md R145). -/
  | clrsts
  deriving DecidableEq, Repr

end Sys2Proof
end

