-- ==== Sys2Proof/WellFormed.lean ====
section
/-! DEFINITION. Which widths are configurations, and which commands a command word of that width can carry. -/

namespace Sys2Proof

/-- `W` is a legal operand width (00_scope.md R5, 30_encoding.md R84). -/
def legalWidth (W : Nat) : Bool := decide (Config.minWidth ≤ W)

/-- A command is well formed in a block of width `W` when the command word has room for its OPCODE
(30_encoding.md R84). Commands have no operand, so there is nothing else to check (R83). -/
def Instr.wellFormed (W : Nat) : Instr → Bool
  | .nop => legalWidth W
  | .egcd => legalWidth W
  | .modinv => legalWidth W
  | .clrsts => legalWidth W

end Sys2Proof
end

