-- ==== Sys2Proof/Word.lean ====
section
/-! DEFINITION. The words of the block: a register holds a W-bit pattern (00_scope.md R8), an offset has four bits
(20_memory.md R50), an OPCODE has eight (30_encoding.md R82). -/

namespace Sys2Proof

/-- A register value: a pattern of `W` bits (00_scope.md R8). -/
abbrev Word (W : Nat) := BitVec W

/-- A word offset of the register space, `0x0..0xF` (20_memory.md R50). -/
abbrev Offset := BitVec 4

/-- The OPCODE field of a command word (30_encoding.md R82). -/
abbrev Opcode := BitVec 8

end Sys2Proof
end

