-- ==== Sys2Proof/Decode.lean ====
section
/-! DEFINITION. Command words: the decoder, total on every word, and the encoder (30_encoding.md R82, R85, R89). -/

namespace Sys2Proof

/-- The OPCODE field `v[7:0]`: all the decoder reads (30_encoding.md R82). -/
def opcodeOf {W : Nat} (v : Word W) : Opcode := v.extractLsb' 0 8

/-- What a command word says: an assigned command, or a reserved OPCODE, kept by its value (30_encoding.md R86; log 14). -/
inductive Command where
  | instr (i : Instr)
  | reserved (opcode : Opcode)
  deriving DecidableEq, Repr

/-- The opcode map, read from the OPCODE (30_encoding.md R85, R89). -/
def decodeOpcode (c : Opcode) : Command :=
  if c = 0x00 then .instr .nop
  else if c = 0x01 then .instr .egcd
  else if c = 0x02 then .instr .modinv
  else if c = 0x03 then .instr .clrsts
  else .reserved c

/-- `decode(v)` (30_encoding.md R89). -/
def decode {W : Nat} (v : Word W) : Command := decodeOpcode (opcodeOf v)

/-- The OPCODE of a command (30_encoding.md R85). -/
def opcode : Instr → Opcode
  | .nop => 0x00
  | .egcd => 0x01
  | .modinv => 0x02
  | .clrsts => 0x03

/-- The command word of a command at width `W`: its OPCODE in bits 7:0, and 0 in the ignored bits, as software
should write (30_encoding.md R82, R85). -/
def encode (W : Nat) (i : Instr) : Word W := (opcode i).setWidth W

/-- The instruction the decoder reads from a word of the opcode table, the bits above `nbits` being 0. The ignored
bits do not matter, so the width the word is read at does not either, as long as it is legal. -/
def decodeTableWord (nbits w : Nat) : Option Instr :=
  match decode (BitVec.ofNat Config.resetWidth (w % 2 ^ nbits)) with
  | .instr i => some i
  | .reserved _ => none

end Sys2Proof
end

