-- ==== Sys2Proof/Machine/State.lean ====
section
/-! DEFINITION. The state of the block, of the inputs that reach it, and the state after reset
(10_state.md R20 to R42, 70_reset_and_hazards.md R190). -/

namespace Sys2Proof.Machine

/-- The sequencing state (10_state.md R38). `STATUS.BUSY` is `phase = run` (R32). -/
inductive Phase where
  | idle
  | run
  deriving DecidableEq, Repr

/-- The outcome of the last completion, STATUS.ERR (60_exceptions.md R160). The codes 4 to 7 are never produced and
have no name here (I10; log 9). -/
inductive Err where
  | none
  | noInverse
  | badModulus
  | illegalCmd
  deriving DecidableEq, Repr

/-- The command the engine is carrying out (10_state.md R39). -/
inductive Op where
  | egcd
  | modinv
  deriving DecidableEq, Repr

/-- The block at width `W` (10_state.md R20). -/
structure Block (W : Nat) where
  /-- First operand, signed (R21). -/
  A : Word W
  /-- Second operand, or the modulus, signed (R22). -/
  B : Word W
  /-- Greatest common divisor, unsigned (R23). -/
  G : Word W
  /-- Coefficient of the first argument, signed (R24). -/
  X : Word W
  /-- Coefficient of the second argument, signed (R25). -/
  Y : Word W
  /-- Modular inverse, unsigned (R26). -/
  R : Word W
  /-- CTRL bit 0, the interrupt enable; CTRL's other bits store nothing (R30). -/
  IE : Bool
  /-- STATUS bit 1 (R33). -/
  DONE : Bool
  /-- STATUS bits 4:2 (R34). -/
  ERR : Err
  /-- STATUS bit 5, sticky (R35). -/
  OVR : Bool
  /-- R38; STATUS bit 0 is computed from it (R32). -/
  phase : Phase
  /-- The working registers, signed IW-bit values held as integers, which 00_scope.md R6 allows (R37; log 2). -/
  r0 : Int
  r1 : Int
  x0 : Int
  x1 : Int
  y0 : Int
  y1 : Int
  /-- The latched command (R39). -/
  op : Op
  /-- The latched operand of A was negative (R39). -/
  sa : Bool
  /-- The latched operand of B was negative (R39). -/
  sb : Bool
  /-- The latched copy of B, MODINV's modulus (R39). -/
  mreg : Word W
  deriving DecidableEq, Repr

/-- One item of the host's coming actions, in program order. -/
inductive HostAction (W : Nat) where
  /-- `RegRead(off)` (20_memory.md R52). -/
  | read (off : Offset)
  /-- `RegWrite(off, v)` (20_memory.md R53). -/
  | write (off : Offset) (v : Word W)
  /-- The pseudo-instruction `wait_done`: read STATUS, again as long as BUSY = 1 (30_encoding.md R91; log 7). -/
  | waitDone
  deriving DecidableEq, Repr

/-- Whose transition comes next (00_scope.md R11), or a change of the reset input's level
(70_reset_and_hazards.md R190; log 6). -/
inductive Turn where
  | host
  | engine
  | rst (level : Bool)
  deriving DecidableEq, Repr

/-- The world outside the block: MODEL fields, no registers of the block (logs 4 to 6). -/
structure Env (W : Nat) where
  /-- The level of the reset input `rst`; true while it is asserted (70_reset_and_hazards.md R190). -/
  rst : Bool
  /-- What the host has still to do, in its program order (00_scope.md R11). -/
  pending : List (HostAction W)
  /-- What the host's reads returned, with their offsets, the newest first (20_memory.md R52). -/
  returned : List (Offset × Word W)
  /-- Whose turns come next, as far as the interleaving has been settled (00_scope.md R11). -/
  turns : List Turn
  /-- How many bursts of `Config.hostBurst` have been drawn. -/
  tick : Nat
  deriving DecidableEq, Repr

/-- The machine: the width W, which is configuration and which no transition changes (00_scope.md R5; log 1), the
block of that width, and the world outside it. -/
structure State where
  W : Nat
  blk : Block W
  env : Env W
  deriving DecidableEq, Repr

/-- Nothing stops the block with a fault: an error is a completion with a code in STATUS, there is no trap
(60_exceptions.md R161, R166, R170). So no constructor stands here, nobody raises one, and that is exact (log 13). -/
inductive Fault where
  deriving DecidableEq, Repr

/-- Why a step has no meaning. -/
inductive Refusal where
  /-- An arm of `exec` that has no meaning yet would raise it; no arm does. Safe. -/
  | notModelled (mnemonic : String)
  /-- `step` raises it in a state whose width is below 8, which is no configuration of the block: "a model refuses it"
  (30_encoding.md R84, I11). Safe (log 10). -/
  | illegalWidth (W : Nat)
  deriving DecidableEq, Repr

/-- The outcome of a step or of a command. -/
abbrev Result := Host.Outcome State Fault Refusal

/-- Every register of the block at its reset value (70_reset_and_hazards.md R190). The working registers and the
latched command state, whose reset values are unspecified (10_state.md R37, R39), hold the values of log 3. -/
def Block.reset (W : Nat) : Block W where
  A := 0
  B := 0
  G := 0
  X := 0
  Y := 0
  R := 0
  IE := false
  DONE := false
  ERR := .none
  OVR := false
  phase := .idle
  r0 := 0
  r1 := 0
  x0 := 0
  x1 := 0
  y0 := 0
  y1 := 0
  op := .egcd
  sa := false
  sb := false
  mreg := 0

/-- The world outside with `rst` released, a host that has nothing to do and no interleaving settled (log 4, log 5). -/
def Env.quiet (W : Nat) : Env W where
  rst := false
  pending := []
  returned := []
  turns := []
  tick := 0

/-- A block of width `W` right after reset. -/
abbrev State.resetAt (W : Nat) : State where
  W := W
  blk := Block.reset W
  env := Env.quiet W

/-- The machine right after reset, at the width of log 1. -/
def State.reset : State := State.resetAt Config.resetWidth

end Sys2Proof.Machine
end

