-- ==== Sys2Proof/Machine/Flags.lean ====
section
/-! DEFINITION. STATUS, CTRL and irq: the words the host reads and the output the block drives, computed from the
flags, and the flag updates the transitions share (10_state.md R30 to R35, R40). -/

namespace Sys2Proof.Machine

/-- The code of an error in STATUS.ERR (60_exceptions.md R160). -/
def Err.code : Err → Nat
  | .none => 0
  | .noInverse => 1
  | .badModulus => 2
  | .illegalCmd => 3

/-- `STATUS.BUSY` is `phase = RUN` (10_state.md R32). -/
def Block.busy {W : Nat} (b : Block W) : Bool := decide (b.phase = .run)

/-- The STATUS word, `OVR·0x20 + ERR·0x04 + DONE·0x02 + BUSY` (10_state.md R31). -/
def Block.statusWord {W : Nat} (b : Block W) : Word W :=
  BitVec.ofNat W (b.OVR.toNat * 0x20 + b.ERR.code * 0x04 + b.DONE.toNat * 0x02 + b.busy.toNat)

/-- The CTRL word: IE in bit 0, the reserved bits 0 (10_state.md R30). -/
def Block.ctrlWord {W : Nat} (b : Block W) : Word W := BitVec.ofNat W b.IE.toNat

/-- The interrupt output, a level (10_state.md R40, 60_exceptions.md R167). -/
def Block.irq {W : Nat} (b : Block W) : Bool := b.DONE && b.IE

/-- DONE and ERR cleared, as acceptance does (40_euclid.md R100). -/
def Block.clearOutcome {W : Nat} (b : Block W) : Block W := { b with DONE := false, ERR := .none }

/-- DONE, ERR and OVR cleared, as CLRSTS does (41_control.md R145). -/
def Block.clearStatus {W : Nat} (b : Block W) : Block W := { b.clearOutcome with OVR := false }

/-- The overrun flag set, and nothing else: what dropping a command does (41_control.md R143). -/
def Block.drop {W : Nat} (b : Block W) : Block W := { b with OVR := true }

/-- A completion with the outcome `code`: DONE set, phase IDLE (40_euclid.md R103, 60_exceptions.md R161). -/
def Block.complete {W : Nat} (b : Block W) (code : Err) : Block W :=
  { b with ERR := code, DONE := true, phase := .idle }

end Sys2Proof.Machine
end

