-- ==== Sys2Proof/Machine/Operands.lean ====
section
/-! DEFINITION. How words are read as numbers and numbers narrowed to words (00_scope.md R9, 30_encoding.md R88), and
what each offset of the register space names (20_memory.md R51). -/

namespace Sys2Proof.Machine

/-- The two's-complement value of a pattern (00_scope.md R9). -/
def sval {W : Nat} (v : Word W) : Int := v.toInt

/-- The unsigned value of a pattern (00_scope.md R9). -/
def uval {W : Nat} (v : Word W) : Nat := v.toNat

/-- `bits_W(n)`: the pattern of `n mod 2^W` (00_scope.md R9). -/
def bitsW (W : Nat) (n : Int) : Word W := BitVec.ofInt W n

/-- `abs(n)` (00_scope.md R9). -/
def absVal (n : Int) : Int := n.natAbs

/-- `fmod(n, m)` for `m > 0`: the floor modulus, in `[0, m)` (00_scope.md R9). The engine uses no other `m`
(40_euclid.md R115; log 11). -/
def fmod (n m : Int) : Int := n % m

/-- The sign step: the coefficient of a negative operand is negated (40_euclid.md R104). -/
def signFix (negative : Bool) (c : Int) : Int := if negative then -c else c

/-- The names of the register map (20_memory.md R51). -/
inductive Reg where
  | A
  | B
  | CMD
  | CTRL
  | STATUS
  | G
  | X
  | Y
  | R
  | reserved
  deriving DecidableEq, Repr

/-- Which register an offset names; 0x9 to 0xF are reserved (20_memory.md R51, R54). -/
def Reg.ofOffset (off : Offset) : Reg :=
  match off.toNat with
  | 0x0 => .A
  | 0x1 => .B
  | 0x2 => .CMD
  | 0x3 => .CTRL
  | 0x4 => .STATUS
  | 0x5 => .G
  | 0x6 => .X
  | 0x7 => .Y
  | 0x8 => .R
  | _ => .reserved

/-- The offset of CMD: the one place a command is issued (30_encoding.md R81). -/
def cmdOffset : Offset := 0x2

/-- The offset of STATUS, which `wait_done` polls (30_encoding.md R91). -/
def statusOffset : Offset := 0x4

end Sys2Proof.Machine
end

