-- ==== Sys2Proof/Machine/Ops.lean ====
section
/-! DEFINITION. The operations the commands and the agents share: reporting an error, accepting and starting a command,
dropping one, and reading a register. -/

namespace Sys2Proof.Machine

/-- `complete_error(code)`, the one way an error is reported: this hardware's exception. It saves the code in STATUS,
transfers no control and writes no result (60_exceptions.md R161, R166). Its return is CLRSTS or the next acceptance,
which clear DONE and ERR (R171). -/
def Block.completeError {W : Nat} (b : Block W) (code : Err) : Block W := b.complete code

/-- START: the command and the signs are latched, the working registers set up, phase RUN (40_euclid.md R101). `a` and
`m` are the operands as the host sees them; `m`'s pattern is latched whole. -/
def Block.start {W : Nat} (b : Block W) (op : Op) (a m : Word W) : Block W :=
  { b with
    op := op
    sa := decide (sval a < 0)
    sb := decide (sval m < 0)
    mreg := m
    r0 := absVal (sval a)
    r1 := absVal (sval m)
    x0 := 1
    x1 := 0
    y0 := 0
    y1 := 1
    phase := .run }

/-- `accept(opc)`: A and B are read here and only here; MODINV with `sval(B) ≤ 0` completes at once with BAD_MODULUS,
DONE and ERR not cleared first (40_euclid.md R100, R110; 90_conflicts.md C6). -/
def Block.accept {W : Nat} (b : Block W) (op : Op) : Block W :=
  if op = .modinv ∧ sval b.B ≤ 0 then b.completeError .badModulus
  else b.clearOutcome.start op b.A b.B

/-- The arm of the dispatch that every command but NOP goes through: in RUN it is dropped, in IDLE it acts
(41_control.md R140, R143). -/
def Block.unlessBusy {W : Nat} (b act : Block W) : Block W :=
  match b.phase with
  | .run => b.drop
  | .idle => act

/-- The word `RegRead(off)` returns (20_memory.md R51, R52, R54, R55). -/
def Block.readReg {W : Nat} (b : Block W) (off : Offset) : Word W :=
  match Reg.ofOffset off with
  | .A => b.A
  | .B => b.B
  | .CMD => 0
  | .CTRL => b.ctrlWord
  | .STATUS => b.statusWord
  | .G => b.G
  | .X => b.X
  | .Y => b.Y
  | .R => b.R
  | .reserved => 0

/-- The state with its block replaced. -/
abbrev State.withBlk (s : State) (b : Block s.W) : State := { s with blk := b }

/-- A transition that leaves the block as `b`. -/
def State.goto (s : State) (b : Block s.W) : Result := .next (s.withBlk b)

end Sys2Proof.Machine
end

