-- ==== Sys2Proof/Machine/Control.lean ====
section
/-! DEFINITION. The meanings of NOP and CLRSTS, and of a reserved OPCODE (41_control.md). -/

namespace Sys2Proof.Machine

/-- NOP changes no state, in any phase (41_control.md R140, R144). -/
def execNop (s : State) : Result := .next s

/-- CLRSTS clears DONE, ERR and OVR in IDLE, and is dropped in RUN (41_control.md R140, R143, R145). -/
def execClrsts (s : State) : Result := s.goto (s.blk.unlessBusy s.blk.clearStatus)

/-- A reserved OPCODE completes with ILLEGAL_CMD in IDLE, and is dropped in RUN (41_control.md R140, R142, R143;
30_encoding.md R86). -/
def execReserved (s : State) : Result := s.goto (s.blk.unlessBusy (s.blk.completeError .illegalCmd))

end Sys2Proof.Machine
end

