-- ==== Sys2Proof/Machine/Euclid.lean ====
section
/-! DEFINITION. The meanings of EGCD and MODINV at the write that issues them, and the engine steps that carry them out
(40_euclid.md). -/

namespace Sys2Proof.Machine

/-- EGCD is accepted in IDLE, and dropped in RUN (40_euclid.md R100, R106; 41_control.md R140, R143). -/
def execEgcd (s : State) : Result := s.goto (s.blk.unlessBusy (s.blk.accept .egcd))

/-- MODINV is accepted in IDLE, where a modulus that is not positive completes at once with BAD_MODULUS, and dropped in
RUN (40_euclid.md R100, R109, R110; 41_control.md R140, R143). -/
def execModinv (s : State) : Result := s.goto (s.blk.unlessBusy (s.blk.accept .modinv))

/-- ITER, one division step; every right-hand side is read before any register is written (40_euclid.md R102). -/
def Block.iter {W : Nat} (b : Block W) : Block W :=
  let q := b.r0 / b.r1
  { b with
    r0 := b.r1
    r1 := b.r0 - q * b.r1
    x0 := b.x1
    x1 := b.x0 - q * b.x1
    y0 := b.y1
    y1 := b.y0 - q * b.y1 }

/-- The sign-corrected coefficient of the first operand (40_euclid.md R103, R104). -/
def Block.coeffA {W : Nat} (b : Block W) : Int := signFix b.sa b.x0

/-- The sign-corrected coefficient of the second operand (40_euclid.md R103, R104). -/
def Block.coeffB {W : Nat} (b : Block W) : Int := signFix b.sb b.y0

/-- FINISH of EGCD: the three results, then the completion (40_euclid.md R103, R106). -/
def Block.finishEgcd {W : Nat} (b : Block W) : Block W :=
  { b with G := bitsW W b.r0, X := bitsW W b.coeffA, Y := bitsW W b.coeffB }.complete .none

/-- FINISH of MODINV: NO_INVERSE with nothing written where `g ≠ 1` (40_euclid.md R111), else R (R112). -/
def Block.finishModinv {W : Nat} (b : Block W) : Block W :=
  if b.r0 = 1 then { b with R := bitsW W (fmod b.coeffA (sval b.mreg)) }.complete .none
  else b.completeError .noInverse

/-- FINISH: results, STATUS and phase in one transition (40_euclid.md R103). -/
def Block.finish {W : Nat} (b : Block W) : Block W :=
  match b.op with
  | .egcd => b.finishEgcd
  | .modinv => b.finishModinv

/-- The engine's step: ITER or FINISH in RUN by whether r1 is 0, none in IDLE (10_state.md R38; 40_euclid.md R102,
R103). -/
def Block.engineStep {W : Nat} (b : Block W) : Block W :=
  match b.phase with
  | .idle => b
  | .run => if b.r1 = 0 then b.finish else b.iter

end Sys2Proof.Machine
end

