-- ==== Sys2Proof/Machine/HostPort.lean ====
section
/-! DEFINITION. The host's port: `RegWrite`, the issue of a command, and one turn of the host (20_memory.md R52, R53;
41_control.md R140). -/

namespace Sys2Proof.Machine

/-- A write of `v` to CMD: the word is decoded and acted on in the same transition (41_control.md R140). -/
def issue (s : State) (v : Word s.W) : Result :=
  match decode v with
  | .instr i => exec i s
  | .reserved _ => execReserved s

/-- `RegWrite(off, v)` (20_memory.md R51, R53, R54, R55; 41_control.md R146). -/
def regWrite (s : State) (off : Offset) (v : Word s.W) : Result :=
  match Reg.ofOffset off with
  | .A => s.goto { s.blk with A := v }
  | .B => s.goto { s.blk with B := v }
  | .CMD => issue s v
  | .CTRL => s.goto { s.blk with IE := v.getLsbD 0 }
  | .STATUS => .next s
  | .G => .next s
  | .X => .next s
  | .Y => .next s
  | .R => .next s
  | .reserved => .next s

/-- The host's coming actions replaced. -/
abbrev State.withPending (s : State) (as : List (HostAction s.W)) : State := { s with env := { s.env with pending := as } }

/-- `RegRead(off)`: the word goes to the host; the block does not change (20_memory.md R52, R60). -/
abbrev State.recordRead (s : State) (off : Offset) : State :=
  { s with env := { s.env with returned := (off, s.blk.readReg off) :: s.env.returned } }

/-- One turn of the host: its next action in program order, none where it has nothing to do. While `rst` is asserted a
write is ignored and a read returns the reset value, which the block then holds (70_reset_and_hazards.md R190).
`wait_done` reads STATUS and stays the next action as long as BUSY = 1 (30_encoding.md R91). -/
def hostTurn (s : State) : Result :=
  match s.env.pending with
  | [] => .next s
  | .read off :: rest => .next ((s.withPending rest).recordRead off)
  | .write off v :: rest => if s.env.rst then .next (s.withPending rest) else regWrite (s.withPending rest) off v
  | .waitDone :: rest =>
    if s.blk.busy then .next (s.recordRead statusOffset)
    else .next ((s.withPending rest).recordRead statusOffset)

end Sys2Proof.Machine
end

