-- ==== Sys2Proof/Machine/Schedule.lean ====
section
/-! DEFINITION. Whose transition comes next (00_scope.md R11, R199), what a turn of each kind does, and the reset input
(70_reset_and_hazards.md R190, R191). -/

namespace Sys2Proof.Machine

/-- The settled turns replaced. -/
abbrev State.withTurns (s : State) (ts : List Turn) : State := { s with env := { s.env with turns := ts } }

/-- The next turn, taken off the state. A settled turn comes first. With none settled, the only agent that can act
moves: the host in IDLE, the engine in RUN when the host has nothing to do. Where both could, a burst of the free
length `Config.hostBurst` is drawn: that many host turns, then one of the engine (00_scope.md R11; weak fairness, R199;
log 5). -/
def State.schedule (s : State) : Turn × State :=
  match s.env.turns with
  | t :: ts => (t, s.withTurns ts)
  | [] =>
    match s.blk.phase, s.env.pending with
    | .idle, _ => (.host, s)
    | .run, [] => (.engine, s)
    | .run, _ :: _ =>
      match Config.hostBurst s.env.tick with
      | 0 => (.engine, { s with env := { s.env with tick := s.env.tick + 1 } })
      | n + 1 => (.host, { s with env := { s.env with
          turns := List.replicate n .host ++ [.engine], tick := s.env.tick + 1 } })

/-- While `rst` is asserted every piece of the block's state holds its reset value (70_reset_and_hazards.md R190). -/
def State.settle (s : State) : State := if s.env.rst then s.withBlk (Block.reset s.W) else s

/-- A turn of the engine (40_euclid.md R102, R103). -/
abbrev engineTurn (s : State) : State := s.withBlk s.blk.engineStep

/-- The reset input takes a level. Asserting it puts the block at its reset values in that transition, a running command
ending with no completion (70_reset_and_hazards.md R190, R191). Releasing it leaves the values it held. -/
abbrev rstTurn (level : Bool) (s : State) : State :=
  { s with
    blk := if level then Block.reset s.W else s.blk
    env := { s.env with rst := level } }

/-- What a turn does. -/
def perform (t : Turn) (s : State) : Result :=
  match t with
  | .host => hostTurn s
  | .engine => .next (engineTurn s)
  | .rst level => .next (rstTurn level s)

end Sys2Proof.Machine
end

