-- ==== Sys2Proof/Machine/Step.lean ====
section
/-! DEFINITION. One transition of the machine (00_scope.md R11), and where a command word is placed to be the next. -/

namespace Sys2Proof.Machine

/-- One transition: a width that is no configuration is refused (30_encoding.md R84); else the next turn is taken. -/
def step (s : State) : Host.Outcome State Fault Refusal :=
  if legalWidth s.W then perform s.settle.schedule.1 s.settle.schedule.2
  else .refused (.illegalWidth s.W)

/-- `s` with a table word placed where the next step takes its command from: as the word of a write to CMD that is the
host's next action, the next turn being the host's and `rst` released (log 12). -/
def State.withFetchWord (s : State) (nbits w : Nat) : State :=
  { s with env := { s.env with
      rst := false
      turns := .host :: s.env.turns
      pending := .write cmdOffset (BitVec.ofNat s.W (w % 2 ^ nbits)) :: s.env.pending } }

end Sys2Proof.Machine
end

