-- ==== Sys2Proof/Machine/HostAsm.lean ====
section
/-! DEFINITION. The host assembly of the spec: its lines, their encodings as register accesses, and the expansions of
its pseudo-instructions (30_encoding.md R90, R91). Labels and branches other than the loop of `wait_done` are the host's
own control flow and no part of the block (R91, 41_control.md R147; log 7). -/

namespace Sys2Proof.Machine

/-- `<reg>`: a name of the map, or an offset written `@0xN` (30_encoding.md R90). -/
inductive RegName where
  | A
  | B
  | CMD
  | CTRL
  | STATUS
  | G
  | X
  | Y
  | R
  | at (off : Offset)
  deriving DecidableEq, Repr

/-- `off(reg)` (30_encoding.md R90; 20_memory.md R51). -/
def RegName.offset : RegName → Offset
  | .A => 0x0
  | .B => 0x1
  | .CMD => 0x2
  | .CTRL => 0x3
  | .STATUS => 0x4
  | .G => 0x5
  | .X => 0x6
  | .Y => 0x7
  | .R => 0x8
  | .at off => off

/-- `<value>`: a decimal integer or a `0x` pattern (30_encoding.md R90). -/
inductive Literal where
  | dec (n : Int)
  | hex (p : Nat)
  deriving DecidableEq, Repr

/-- The word of a value at width `W`: a decimal integer is taken as `bits_W` of it (30_encoding.md R90). -/
def Literal.word (W : Nat) : Literal → Word W
  | .dec n => bitsW W n
  | .hex p => BitVec.ofNat W p

/-- A value has a word: a decimal lies where `bits_W` is defined, `−2^(W−1) ≤ n < 2^W`, and a pattern has at most `W`
bits (00_scope.md R9). -/
def Literal.wellFormed (W : Nat) : Literal → Bool
  | .dec n => decide (-(2 : Int) ^ (W - 1) ≤ n ∧ n < (2 : Int) ^ W)
  | .hex p => decide (p < 2 ^ W)

/-- A line of a host program (30_encoding.md R90, R91). -/
inductive HostLine where
  | write (r : RegName) (v : Literal)
  | read (r : RegName)
  | cmd (i : Instr)
  | waitDone
  | egcd (a b : Literal)
  | modinv (a m : Literal)
  deriving DecidableEq, Repr

/-- Every value of a line has a word, and a command's word has room for its OPCODE. -/
def HostLine.wellFormed (W : Nat) : HostLine → Bool
  | .write _ v => v.wellFormed W
  | .read _ => true
  | .cmd i => i.wellFormed W
  | .waitDone => true
  | .egcd a b => a.wellFormed W && b.wellFormed W && Instr.egcd.wellFormed W
  | .modinv a m => a.wellFormed W && m.wellFormed W && Instr.modinv.wellFormed W

/-- `write <reg>, <value>` is the pair of the offset and the word (30_encoding.md R90). -/
def writeAction (W : Nat) (r : RegName) (v : Literal) : HostAction W := .write r.offset (v.word W)

/-- `cmd <MNEMONIC>` writes CMD with the command's word (30_encoding.md R90). -/
def cmdAction (W : Nat) (i : Instr) : HostAction W := .write RegName.CMD.offset (encode W i)

/-- The host actions of a line: one, or the expansion of a pseudo-instruction (30_encoding.md R90, R91). -/
def HostLine.actions (W : Nat) : HostLine → List (HostAction W)
  | .write r v => [writeAction W r v]
  | .read r => [.read r.offset]
  | .cmd i => [cmdAction W i]
  | .waitDone => [.waitDone]
  | .egcd a b => [writeAction W .A a, writeAction W .B b, cmdAction W .egcd, .waitDone]
  | .modinv a m => [writeAction W .A a, writeAction W .B m, cmdAction W .modinv, .waitDone]

/-- The actions of a host program, in program order. -/
def hostProgram (W : Nat) : List HostLine → List (HostAction W)
  | [] => []
  | l :: ls => l.actions W ++ hostProgram W ls

end Sys2Proof.Machine
end

