-- ==== Sys2Proof/Safety.lean ====
section
/-! DEFINITION. What counts as a good state and a good run, in the terms the statements use: the block at reset, a
command in progress on given operands, the invariant, runs, and the two functions of the source the engine realises. -/

namespace Sys2Proof.Machine

/-- The block holds every reset value the spec states (70_reset_and_hazards.md R190). The hidden working registers and
the latched command state, whose reset values are unspecified, are not named. -/
structure Block.AtReset {W : Nat} (b : Block W) : Prop where
  A : b.A = 0
  B : b.B = 0
  G : b.G = 0
  X : b.X = 0
  Y : b.Y = 0
  R : b.R = 0
  IE : b.IE = false
  DONE : b.DONE = false
  ERR : b.ERR = .none
  OVR : b.OVR = false
  phase : b.phase = .idle

/-- A value lies in `[−2^(W−1), 2^(W−1)]`, which IW = W + 1 signed bits hold (00_scope.md R6). -/
abbrev FitsIW (W : Nat) (n : Int) : Prop := -(2 : Int) ^ (W - 1) ≤ n ∧ n ≤ (2 : Int) ^ (W - 1)

/-- The block is carrying out a command that was accepted with the operand values `a` and `m`: what holds after START and
after every ITER (40_euclid.md R101, R102; 10_state.md R33, R34). -/
structure Block.RunsOn {W : Nat} (a m : Int) (b : Block W) : Prop where
  phase : b.phase = .run
  done : b.DONE = false
  err : b.ERR = .none
  /-- `a` and `m` are values of W-bit patterns. -/
  a_lo : -(2 : Int) ^ (W - 1) ≤ a
  a_hi : a < (2 : Int) ^ (W - 1)
  mreg : sval b.mreg = m
  sa : b.sa = decide (a < 0)
  sb : b.sb = decide (m < 0)
  /-- MODINV runs on a positive modulus only (R100). -/
  modulus : b.op = .modinv → 1 ≤ m
  r0_nonneg : 0 ≤ b.r0
  r1_nonneg : 0 ≤ b.r1
  bezout0 : b.r0 = absVal a * b.x0 + absVal m * b.y0
  bezout1 : b.r1 = absVal a * b.x1 + absVal m * b.y1
  gcd : Int.gcd b.r0 b.r1 = Int.gcd a m
  /-- The coefficients alternate in sign, and their cross sums give the operands back: why they stay small. -/
  altX : b.x0 * b.x1 ≤ 0
  altY : b.y0 * b.y1 ≤ 0
  crossX : absVal b.x1 * b.r0 + absVal b.x0 * b.r1 = absVal m
  crossY : absVal b.y1 * b.r0 + absVal b.y0 * b.r1 = absVal a
  fits_r0 : FitsIW W b.r0
  fits_r1 : FitsIW W b.r1
  fits_x0 : FitsIW W b.x0
  fits_x1 : FitsIW W b.x1
  fits_y0 : FitsIW W b.y0
  fits_y1 : FitsIW W b.y1
  /-- Either no ITER has happened, or the remainders fall and the coefficients FINISH would write lie within
  `±2^(W−2)` (R117). -/
  small : (b.x0 = 1 ∧ b.x1 = 0 ∧ b.y0 = 0 ∧ b.y1 = 1) ∨
    (b.r1 < b.r0 ∧ absVal b.x0 ≤ (2 : Int) ^ (W - 2) ∧ absVal b.y0 ≤ (2 : Int) ^ (W - 2))

/-- The ranges of the results, and the meaning of ERR while nothing has completed (10_state.md R23 to R26, R34;
40_euclid.md R117; 60_exceptions.md R160). -/
structure Block.ResultsInRange {W : Nat} (b : Block W) : Prop where
  err : b.DONE = false → b.ERR = .none
  G : uval b.G ≤ 2 ^ (W - 1)
  X_lo : -(2 : Int) ^ (W - 2) ≤ sval b.X
  X_hi : sval b.X ≤ (2 : Int) ^ (W - 2)
  Y_lo : -(2 : Int) ^ (W - 2) ≤ sval b.Y
  Y_hi : sval b.Y ≤ (2 : Int) ^ (W - 2)
  R : uval b.R ≤ 2 ^ (W - 1) - 2

/-- The invariant of the machine: a legal width, results in range, a command in progress that runs on some operands,
and a block at its reset values while `rst` is asserted. -/
structure State.Inv (s : State) : Prop where
  width : legalWidth s.W = true
  results : s.blk.ResultsInRange
  running : s.blk.phase = .run → ∃ a m, s.blk.RunsOn a m
  held : s.env.rst = true → s.blk.AtReset

/-- The host's next action issues the command `c`: it is a write to CMD of a word that decodes to it (30_encoding.md R81). -/
def State.Issues (s : State) (c : Command) : Prop :=
  ∃ v as, s.env.pending = .write cmdOffset v :: as ∧ decode v = c

/-- `k` steps from `s`. -/
def runFrom (k : Nat) (s : State) : Result := Host.Core.run Sys2Proof.core k s

/-- `rst` is released and no settled turn asserts it. -/
def State.NoReset (s : State) : Prop := s.env.rst = false ∧ Turn.rst true ∉ s.env.turns

/-- The command in progress in `s` reaches its FINISH at some step: the block stays in RUN up to it, completes with it,
and the completed state meets `P`. -/
def State.FinishesWith (s : State) (P : State → Prop) : Prop :=
  ∃ k, (∀ j, j ≤ k → ∃ u, runFrom j s = .next u ∧ u.blk.phase = .run) ∧
    ∃ t, runFrom (k + 1) s = .next t ∧ t.blk.phase = .idle ∧ t.blk.DONE = true ∧ P t

/-- The loop of the extended Euclid on given remainders and coefficients, at most `fuel` division steps
(40_euclid.md R101, R102). -/
def euclidLoop : Nat → Int → Int → Int → Int → Int → Int → Int × Int × Int
  | 0, r0, _, x0, _, y0, _ => (r0, x0, y0)
  | fuel + 1, r0, r1, x0, x1, y0, y1 =>
    if r1 = 0 then (r0, x0, y0)
    else euclidLoop fuel r1 (r0 - r0 / r1 * r1) x1 (x0 - r0 / r1 * x1) y1 (y0 - r0 / r1 * y1)

/-- `extended_gcd(a, b) -> (g, x, y)`, the source's first function, with the pair of coefficients this spec fixes
(40_euclid.md R101 to R104; 92_eei_decisions.md D5). `|b|` division steps are enough (R105). -/
def extendedGcd (a b : Int) : Int × Int × Int :=
  let l := euclidLoop b.natAbs (absVal a) (absVal b) 1 0 0 1
  (l.1, signFix (decide (a < 0)) l.2.1, signFix (decide (b < 0)) l.2.2)

/-- `mod_inverse(a, m) -> r`, the source's second function: none where it fails with `NoInverseError`
(40_euclid.md R109, R111, R112). -/
def modInverse (a m : Int) : Option Int :=
  let e := extendedGcd a m
  if e.1 = 1 then some (fmod e.2.1 m) else none

end Sys2Proof.Machine
end

