-- ==== Sys2Proof/Certificates/Slice0/Obligations.lean ====
section
/-! DEFINITION. The statements for the provers. Each docstring names the rule of spec/ it formalises. -/

open Sys2Proof Sys2Proof.Machine

/-! ### Command words -/

/-- Words written out from the opcode map of 30_encoding.md R85, with the ignored bits of R82 (95_test_vectors.md V8 to
V11). -/
def Obligations.TableWordsDecode : Prop :=
  decode (0x0000 : Word 16) = .instr .nop ∧
  decode (0x0001 : Word 16) = .instr .egcd ∧
  decode (0x0002 : Word 16) = .instr .modinv ∧
  decode (0x0003 : Word 16) = .instr .clrsts ∧
  decode (0x0100 : Word 16) = .instr .nop ∧
  decode (0xAB01 : Word 16) = .instr .egcd ∧
  decode (0x0004 : Word 16) = .reserved 0x04 ∧
  decode (0x00FF : Word 16) = .reserved 0xFF ∧
  decodeTableWord 8 0x03 = some .clrsts ∧
  decodeTableWord 8 0x04 = none

/-- R89 and R82: the decoder is total, reads the value of bits 7:0 and nothing else, and every OPCODE from 0x04 up is
reserved. -/
def Obligations.DecoderReadsOnlyTheOpcode : Prop :=
  ∀ (W : Nat) (v : Word W), legalWidth W →
    (decode v = .instr .nop ↔ uval v % 256 = 0x00) ∧
    (decode v = .instr .egcd ↔ uval v % 256 = 0x01) ∧
    (decode v = .instr .modinv ↔ uval v % 256 = 0x02) ∧
    (decode v = .instr .clrsts ↔ uval v % 256 = 0x03) ∧
    ((∃ c, decode v = .reserved c) ↔ 0x04 ≤ uval v % 256) ∧
    (∀ c, decode v = .reserved c → uval c = uval v % 256) ∧
    (∀ w : Word W, uval w % 256 = uval v % 256 → decode w = decode v)

/-- Decode and encode agree at every legal width: a command's word decodes to it whatever stands in the ignored bits, and
every word that decodes to it is such a word. -/
def Obligations.DecodeEncodeRoundTrip : Prop :=
  ∀ (W : Nat) (i : Instr), i.wellFormed W →
    (∀ ign : Word W, decode (encode W i ||| ign <<< 8) = .instr i) ∧
    (∀ v : Word W, decode v = .instr i → ∃ ign : Word W, v = encode W i ||| ign <<< 8)

/-! ### Reset -/

/-- R190: every register at the value the rule gives, at every width; STATUS reads 0x0000 and irq is 0. The hidden
registers, unspecified there, are not named. -/
def Obligations.ResetLeavesTheStatedValues : Prop :=
  ∀ W : Nat, (State.resetAt W).blk.AtReset ∧ (State.resetAt W).env.rst = false ∧
    (State.resetAt W).blk.statusWord = 0 ∧ (State.resetAt W).blk.irq = false

/-- R191, with R190: asserting `rst` at any point, in RUN too, leaves the block at its reset values: no completion, no
result, no error code. -/
def Obligations.AssertingResetEndsTheCommand : Prop :=
  ∀ (s : State) (ts : List Turn), legalWidth s.W → s.env.turns = .rst true :: ts →
    ∃ t, step s = .next t ∧ t.blk.AtReset ∧ t.env.rst = true ∧ t.blk.statusWord = 0

/-- R190: while `rst` is asserted no transition has an effect on the block; a read returns the reset value, which is 0 for
every offset, and a write is ignored and gone. The level falls only by a turn that releases it, and with no turn settled
the turn is the host's (logs 5 and 6). -/
def Obligations.AssertedResetHoldsTheBlock : Prop :=
  ∀ s : State, legalWidth s.W → s.env.rst = true →
    (∃ t, step s = .next t ∧ t.blk.AtReset) ∧
    (∀ off as ts, s.env.turns = .host :: ts → s.env.pending = .read off :: as →
      ∃ b : Block s.W, b.AtReset ∧ step s = .next ⟨s.W, b, { s.env with
        turns := ts, pending := as, returned := (off, 0) :: s.env.returned }⟩) ∧
    (∀ off v as ts, s.env.turns = .host :: ts → s.env.pending = .write off v :: as →
      ∃ b : Block s.W, b.AtReset ∧ step s = .next ⟨s.W, b, { s.env with turns := ts, pending := as }⟩) ∧
    (∀ ts, s.env.turns = .rst false :: ts →
      ∃ b : Block s.W, b.AtReset ∧ step s = .next ⟨s.W, b, { s.env with turns := ts, rst := false }⟩) ∧
    (∀ t, step s = .next t → t.env.rst = false → ∃ ts, s.env.turns = .rst false :: ts) ∧
    (s.env.turns = [] → step s = step (s.withTurns [.host]))

/-- The commands issued straight after reset, with A = B = 0 (R193): EGCD finishes in the next engine step with G = 0,
X = 1, Y = 0, and MODINV completes with BAD_MODULUS. -/
def Obligations.CommandsStraightAfterReset : Prop :=
  ∀ W : Nat, legalWidth W →
    (∃ b : Block W, exec .egcd (State.resetAt W) = .next ⟨W, b, Env.quiet W⟩ ∧
      b.phase = .run ∧ b.engineStep.G = 0 ∧ b.engineStep.X = 1 ∧ b.engineStep.Y = 0 ∧
      b.engineStep.statusWord = 0x0002) ∧
    (∃ b : Block W, exec .modinv (State.resetAt W) = .next ⟨W, b, Env.quiet W⟩ ∧
      b.statusWord = 0x000A)

/-! ### The commands at the write that issues them -/

/-- R144: NOP, every word with OPCODE 0x00, changes no state, in any phase: OVR stays as it is while BUSY = 1. -/
def Obligations.NopChangesNothing : Prop :=
  (∀ s : State, exec .nop s = .next s) ∧
  (∀ (s : State) (v : Word s.W), uval v % 256 = 0x00 → regWrite s cmdOffset v = .next s)

/-- R145: CLRSTS, every word with OPCODE 0x03, clears DONE, ERR and OVR in IDLE, so that STATUS reads 0 and irq is 0, and
changes nothing else; in RUN it is dropped and sets OVR. -/
def Obligations.ClrstsClearsTheStatus : Prop :=
  (∀ s : State, s.blk.phase = .idle →
    ∃ b : Block s.W, exec .clrsts s = .next { s with blk := b } ∧
      b = { s.blk with DONE := false, ERR := .none, OVR := false } ∧
      b.statusWord = 0 ∧ b.irq = false) ∧
  (∀ s : State, s.blk.phase = .run → exec .clrsts s = .next { s with blk := { s.blk with OVR := true } }) ∧
  (∀ (s : State) (v : Word s.W), uval v % 256 = 0x03 → regWrite s cmdOffset v = exec .clrsts s)

/-- R101, within the acceptance of R100: EGCD, or MODINV with a positive modulus, written in IDLE latches the command, A and
B and starts; DONE and ERR are cleared; nothing else changes, OVR included. -/
def Obligations.EgcdAndModinvStartInIdle : Prop :=
  (∀ s : State, s.blk.phase = .idle →
    exec .egcd s = .next { s with blk := { s.blk with
      DONE := false, ERR := .none, phase := .run, op := .egcd
      sa := decide (sval s.blk.A < 0), sb := decide (sval s.blk.B < 0), mreg := s.blk.B
      r0 := absVal (sval s.blk.A), r1 := absVal (sval s.blk.B)
      x0 := 1, x1 := 0, y0 := 0, y1 := 1 } }) ∧
  (∀ s : State, s.blk.phase = .idle → 1 ≤ sval s.blk.B →
    exec .modinv s = .next { s with blk := { s.blk with
      DONE := false, ERR := .none, phase := .run, op := .modinv
      sa := decide (sval s.blk.A < 0), sb := decide (sval s.blk.B < 0), mreg := s.blk.B
      r0 := absVal (sval s.blk.A), r1 := absVal (sval s.blk.B)
      x0 := 1, x1 := 0, y0 := 0, y1 := 1 } })

/-- R110: MODINV written in IDLE with a modulus that is not positive completes at once with BAD_MODULUS; phase stays IDLE and
no result register is written. -/
def Obligations.ModinvRefusesABadModulus : Prop :=
  ∀ s : State, s.blk.phase = .idle → sval s.blk.B ≤ 0 →
    exec .modinv s = .next { s with blk := { s.blk with ERR := .badModulus, DONE := true } }

/-- R142: a reserved OPCODE, 0x04 to 0xFF, written to CMD in IDLE sets DONE and ERR = ILLEGAL_CMD and changes nothing else. -/
def Obligations.ReservedOpcodeIsIllegal : Prop :=
  ∀ (s : State) (v : Word s.W), s.blk.phase = .idle → 0x04 ≤ uval v % 256 →
    regWrite s cmdOffset v = .next { s with blk := { s.blk with ERR := .illegalCmd, DONE := true } }

/-- R143: a command word other than NOP written in RUN sets OVR and changes nothing else; it is not queued. -/
def Obligations.CommandInRunIsDropped : Prop :=
  (∀ (s : State) (v : Word s.W), s.blk.phase = .run → decode v ≠ .instr .nop →
    regWrite s cmdOffset v = .next { s with blk := { s.blk with OVR := true } }) ∧
  (∀ (s : State) (i : Instr), s.blk.phase = .run → i ≠ .nop →
    exec i s = .next { s with blk := { s.blk with OVR := true } })

/-- The frame of the four commands at the write that issues them, in both phases: every offset but STATUS reads as
before, the width, the host's side and CTRL are unchanged, and OVR changes only as R35 allows. -/
def Obligations.CommandsWriteOnlyStatus : Prop :=
  ∀ (i : Instr) (s : State), ∃ b : Block s.W, exec i s = .next { s with blk := b } ∧
    (∀ off, off ≠ statusOffset → b.readReg off = s.blk.readReg off) ∧
    (b.OVR ≠ s.blk.OVR →
      (s.blk.phase = .run ∧ b.OVR = true ∧ i ≠ .nop) ∨ (s.blk.phase = .idle ∧ b.OVR = false ∧ i = .clrsts)) ∧
    (s.blk.phase = .run → b.phase = .run ∧ b.DONE = s.blk.DONE ∧ b.ERR = s.blk.ERR)

/-! ### The engine's steps -/

/-- R103: FINISH, enabled in RUN with r1 = 0, writes results, STATUS and phase in one transition, and nothing else. -/
def Obligations.FinishWritesResultsAndStatus : Prop :=
  ∀ (W : Nat) (b : Block W), b.phase = .run → b.r1 = 0 →
    (b.op = .egcd → b.engineStep = { b with
      G := bitsW W b.r0
      X := bitsW W (if b.sa then -b.x0 else b.x0)
      Y := bitsW W (if b.sb then -b.y0 else b.y0)
      ERR := .none, DONE := true, phase := .idle }) ∧
    (b.op = .modinv → b.r0 ≠ 1 → b.engineStep = { b with ERR := .noInverse, DONE := true, phase := .idle }) ∧
    (b.op = .modinv → b.r0 = 1 → b.engineStep = { b with
      R := bitsW W (fmod (if b.sa then -b.x0 else b.x0) (sval b.mreg))
      ERR := .none, DONE := true, phase := .idle })

/-- R102: ITER, enabled exactly in RUN with r1 ≠ 0, replaces the three pairs by the division step and writes no host-visible
register; START establishes the invariants of the working registers and ITER keeps them, with every product in the IW
bits of R6. -/
def Obligations.IterKeepsTheEuclidRelations : Prop :=
  (∀ (W : Nat) (b : Block W) (op : Op), legalWidth W → (op = .modinv → 1 ≤ sval b.B) →
    (b.accept op).RunsOn (sval b.A) (sval b.B)) ∧
  (∀ (W : Nat) (b : Block W), b.phase = .run → b.r1 ≠ 0 → b.engineStep = { b with
      r0 := b.r1, r1 := b.r0 - b.r0 / b.r1 * b.r1
      x0 := b.x1, x1 := b.x0 - b.r0 / b.r1 * b.x1
      y0 := b.y1, y1 := b.y0 - b.r0 / b.r1 * b.y1 }) ∧
  (∀ (W : Nat) (b : Block W) (a m : Int), legalWidth W → b.RunsOn a m → b.r1 ≠ 0 →
    b.engineStep.RunsOn a m ∧
    FitsIW W (b.r0 / b.r1 * b.r1) ∧ FitsIW W (b.r0 / b.r1 * b.x1) ∧ FitsIW W (b.r0 / b.r1 * b.y1))

/-- R105: from acceptance exactly n ≤ |sval(B)| ITER steps happen before FINISH becomes enabled, each leaving r1 smaller
than before; with B = 0 there is none. -/
def Obligations.AtMostAbsBIterations : Prop :=
  ∀ (W : Nat) (b : Block W) (op : Op), legalWidth W → (op = .modinv → 1 ≤ sval b.B) →
    ∃ n, n ≤ (sval b.B).natAbs ∧ (sval b.B = 0 → n = 0) ∧
      (∀ j, j ≤ n → ((Block.engineStep)^[j] (b.accept op)).phase = .run) ∧
      (∀ j, j < n → 0 < ((Block.engineStep)^[j] (b.accept op)).r1 ∧
        ((Block.engineStep)^[j + 1] (b.accept op)).r1 < ((Block.engineStep)^[j] (b.accept op)).r1) ∧
      ((Block.engineStep)^[n] (b.accept op)).r1 = 0 ∧
      ((Block.engineStep)^[n + 1] (b.accept op)).phase = .idle

/-- R107 and R117: where EGCD finishes, uval(G) is the greatest common divisor of the operands it was accepted with and the
coefficients satisfy Bezout's equation in the integers, each within ±2^(W−2). -/
def Obligations.EgcdFinishesWithGcdAndBezout : Prop :=
  ∀ (W : Nat) (b : Block W) (a m : Int), legalWidth W → b.RunsOn a m → b.op = .egcd → b.r1 = 0 →
    uval b.engineStep.G = Int.gcd a m ∧
    a * sval b.engineStep.X + m * sval b.engineStep.Y = uval b.engineStep.G ∧
    uval b.engineStep.G ≤ 2 ^ (W - 1) ∧
    (-(2 : Int) ^ (W - 2) ≤ sval b.engineStep.X ∧ sval b.engineStep.X ≤ (2 : Int) ^ (W - 2)) ∧
    (-(2 : Int) ^ (W - 2) ≤ sval b.engineStep.Y ∧ sval b.engineStep.Y ≤ (2 : Int) ^ (W - 2))

/-- R113: where MODINV completes with ERR = NONE, uval(R) is the unique r in [0, m) with a·r ≡ 1 (mod m); for m = 1 it
is 0. -/
def Obligations.ModinvFinishesWithTheUniqueInverse : Prop :=
  ∀ (W : Nat) (b : Block W) (a m : Int), legalWidth W → b.RunsOn a m → b.op = .modinv → b.r1 = 0 →
    b.engineStep.ERR = .none →
    (uval b.engineStep.R : Int) < m ∧ fmod (a * uval b.engineStep.R) m = fmod 1 m ∧
    (∀ r : Int, 0 ≤ r → r < m → fmod (a * r) m = fmod 1 m → r = uval b.engineStep.R) ∧
    (m = 1 → b.engineStep.R = 0)

/-- R111 and the condition of R116: MODINV reports NO_INVERSE exactly when gcd(a, m) ≠ 1 for the operands it latched, and
then writes none of G, X, Y, R. -/
def Obligations.ModinvReportsNoInverseExactly : Prop :=
  ∀ (W : Nat) (b : Block W) (a m : Int), b.RunsOn a m → b.op = .modinv → b.r1 = 0 →
    (b.engineStep.ERR = .noInverse ↔ Int.gcd a m ≠ 1) ∧
    (b.engineStep.ERR = .none ↔ Int.gcd a m = 1) ∧
    (b.engineStep.ERR = .noInverse → b.engineStep.G = b.G ∧ b.engineStep.X = b.X ∧ b.engineStep.Y = b.Y ∧
      b.engineStep.R = b.R)

/-- R196: a write to A or B takes effect at once and does not change the running command: the engine's steps read neither
register and leave both as the host wrote them. -/
def Obligations.OperandWritesDoNotDisturbTheEngine : Prop :=
  (∀ (s : State) (v : Word s.W), regWrite s RegName.A.offset v = .next { s with blk := { s.blk with A := v } } ∧
    regWrite s RegName.B.offset v = .next { s with blk := { s.blk with B := v } }) ∧
  (∀ (W n : Nat) (b : Block W) (v w : Word W),
    (Block.engineStep)^[n] { b with A := v, B := w } = { (Block.engineStep)^[n] b with A := v, B := w })

/-- The outcome of EGCD and MODINV is a function of the latched operands alone (R172): two blocks that accept the same
command on the same A and B run alike, step by step, and write the same results and code, whatever else they hold. -/
def Obligations.OutcomeDependsOnlyOnTheOperands : Prop :=
  ∀ (W n : Nat) (b c : Block W) (op : Op), (op = .modinv → 1 ≤ sval b.B) → b.A = c.A → b.B = c.B →
    let p := (Block.engineStep)^[n] (b.accept op)
    let q := (Block.engineStep)^[n] (c.accept op)
    p.phase = q.phase ∧ p.DONE = q.DONE ∧ p.ERR = q.ERR ∧
    (p.phase = .idle → op = .egcd → p.G = q.G ∧ p.X = q.X ∧ p.Y = q.Y ∧ p.R = b.R ∧ q.R = c.R) ∧
    (p.phase = .idle → op = .modinv → p.ERR = .none → p.R = q.R) ∧
    (p.phase = .idle → op = .modinv → p.G = b.G ∧ p.X = b.X ∧ p.Y = b.Y) ∧
    (p.ERR ≠ .none → p.R = b.R ∧ q.R = c.R)

/-! ### The register space -/

/-- R51: the register map, what a read of each offset returns and what a write to it does. -/
def Obligations.RegisterMap : Prop :=
  (∀ (W : Nat) (b : Block W),
    b.readReg 0x0 = b.A ∧ b.readReg 0x1 = b.B ∧ b.readReg 0x2 = 0 ∧
    b.readReg 0x3 = BitVec.ofNat W b.IE.toNat ∧ b.readReg 0x4 = b.statusWord ∧
    b.readReg 0x5 = b.G ∧ b.readReg 0x6 = b.X ∧ b.readReg 0x7 = b.Y ∧ b.readReg 0x8 = b.R ∧
    ∀ off : Offset, 0x9 ≤ off → b.readReg off = 0) ∧
  (∀ (s : State) (v : Word s.W),
    regWrite s 0x0 v = .next { s with blk := { s.blk with A := v } } ∧
    regWrite s 0x1 v = .next { s with blk := { s.blk with B := v } } ∧
    (∀ i, decode v = .instr i → regWrite s 0x2 v = exec i s) ∧
    (∀ c, decode v = .reserved c → regWrite s 0x2 v = execReserved s) ∧
    regWrite s 0x3 v = .next { s with blk := { s.blk with IE := v.getLsbD 0 } } ∧
    ∀ off : Offset, 0x4 ≤ off → regWrite s off v = .next s)

/-- R54 and R55: a write to a reserved offset or to a read-only register changes no state; a read of a reserved offset or
of CMD returns 0; the reserved bits of CTRL and STATUS read 0. -/
def Obligations.ReservedAndReadOnlyOffsetsIgnoreWrites : Prop :=
  (∀ (s : State) (off : Offset) (v : Word s.W), 0x4 ≤ off → regWrite s off v = .next s) ∧
  (∀ (W : Nat) (b : Block W) (off : Offset), 0x9 ≤ off → b.readReg off = 0) ∧
  (∀ (W : Nat) (b : Block W), b.readReg cmdOffset = 0) ∧
  (∀ (W : Nat) (b : Block W), uval (b.readReg RegName.CTRL.offset) < 2 ^ 1 ∧ uval (b.readReg statusOffset) < 2 ^ 6)

/-- R146: a CTRL write sets IE to bit 0 in any phase, the other bits ignored, and irq follows DONE and IE from the next
state; it is no command and does not set OVR. -/
def Obligations.CtrlWriteSetsTheInterruptEnable : Prop :=
  ∀ (s : State) (v : Word s.W), legalWidth s.W →
    ∃ b : Block s.W, regWrite s RegName.CTRL.offset v = .next { s with blk := b } ∧
      b = { s.blk with IE := v.getLsbD 0 } ∧
      b.irq = (s.blk.DONE && v.getLsbD 0) ∧
      uval (b.readReg RegName.CTRL.offset) = uval v % 2

/-- R31: the STATUS word is OVR·0x20 + ERR·0x04 + DONE·0x02 + BUSY, in W bits; a host write to it is ignored and a read of it
changes nothing in the block. -/
def Obligations.StatusWordLayout : Prop :=
  (∀ (W : Nat) (b : Block W), legalWidth W →
    uval (b.readReg statusOffset) =
      (if b.OVR then 0x20 else 0) +
      (match b.ERR with | .none => 0 | .noInverse => 1 | .badModulus => 2 | .illegalCmd => 3) * 0x04 +
      (if b.DONE then 0x02 else 0) + (if b.phase = .run then 1 else 0)) ∧
  (∀ (s : State) (v : Word s.W), regWrite s statusOffset v = .next s) ∧
  (∀ s : State, (s.recordRead statusOffset).blk = s.blk)

/-- R52: a RegRead is one transition, in any phase; it hands the host the word of the map from the state just before and
changes nothing in the block. -/
def Obligations.RegReadReturnsTheWordAndChangesNothing : Prop :=
  ∀ (s : State) (off : Offset) (as : List (HostAction s.W)) (ts : List Turn), legalWidth s.W → s.env.rst = false →
    s.env.turns = .host :: ts → s.env.pending = .read off :: as →
    step s = .next { s with env := { s.env with
      turns := ts, pending := as, returned := (off, s.blk.readReg off) :: s.env.returned } }

/-! ### One step -/

/-- A step runs the decoded command: a write to CMD that is the host's next action, on the host's turn, is exec of the
command its word decodes to (R81, R140), or the illegal command, on the state with that action and that turn taken off.
The turn is the settled one, or, with none settled, the host's own in IDLE (log 5). -/
def Obligations.StepRunsTheDecodedCommand : Prop :=
  ∀ (s : State) (v : Word s.W) (as : List (HostAction s.W)), legalWidth s.W → s.env.rst = false →
    s.env.pending = .write cmdOffset v :: as →
    (∀ ts, s.env.turns = .host :: ts →
      (∀ i, decode v = .instr i → step s = exec i ((s.withTurns ts).withPending as)) ∧
      (∀ c, decode v = .reserved c → step s = execReserved ((s.withTurns ts).withPending as))) ∧
    (s.env.turns = [] → s.blk.phase = .idle →
      (∀ i, decode v = .instr i → step s = exec i (s.withPending as)) ∧
      (∀ c, decode v = .reserved c → step s = execReserved (s.withPending as)))

/-- A table word placed by withFetchWord is the next command the machine runs, at every legal width and in every state
(log 12). -/
def Obligations.FetchWordIsRunNext : Prop :=
  ∀ (s : State) (w : Nat) (i : Instr), legalWidth s.W → decodeTableWord 8 w = some i →
    step (s.withFetchWord 8 w) = exec i { s with env := { s.env with rst := false } }

/-- What a step does with each other settled turn: the engine's step, or none in IDLE, where the block stays as it is (R38);
a host turn with nothing pending; a register write; a level of `rst` (logs 5 and 6). -/
def Obligations.StepTakesTheSettledTurn : Prop :=
  ∀ (s : State) (ts : List Turn), legalWidth s.W → s.env.rst = false →
    (s.env.turns = .engine :: ts →
      step s = .next { s with blk := s.blk.engineStep, env := { s.env with turns := ts } }) ∧
    (s.env.turns = .engine :: ts → s.blk.phase = .idle → step s = .next (s.withTurns ts)) ∧
    (s.env.turns = .host :: ts → s.env.pending = [] → step s = .next (s.withTurns ts)) ∧
    (∀ off v as, s.env.turns = .host :: ts → s.env.pending = .write off v :: as →
      step s = regWrite ((s.withTurns ts).withPending as) off v) ∧
    (s.env.turns = .rst false :: ts → step s = .next (s.withTurns ts))

/-- With no turn settled the agents are free (log 5, the model's form of I13 and R199): in RUN with a host action waiting,
the step is that of some finite burst of host turns followed by one engine turn; with none waiting it is the engine's. In
IDLE, where the engine has no step, the turn is the host's, whatever is waiting. -/
def Obligations.UnsettledTurnsAreAFairBurst : Prop :=
  ∀ s : State, legalWidth s.W → s.env.rst = false → s.env.turns = [] →
    (s.blk.phase = .run → s.env.pending = [] → step s = .next { s with blk := s.blk.engineStep }) ∧
    (s.blk.phase = .run → s.env.pending ≠ [] → ∃ n, step s = step { s with env := { s.env with
      turns := List.replicate n .host ++ [.engine], tick := s.env.tick + 1 } }) ∧
    (s.blk.phase = .idle → step s = step (s.withTurns [.host]))

/-- A width below 8 is no configuration and the model refuses it (R84). -/
def Obligations.NarrowWidthIsRefused : Prop :=
  ∀ s : State, s.W < 8 → step s = .refused (.illegalWidth s.W)

/-- At every legal width every step has a next state, whatever the turn and whatever is pending: nothing faults (R166,
R170), no command is refused, and the width stays. -/
def Obligations.LegalStepsAlwaysComplete : Prop :=
  ∀ s : State, 8 ≤ s.W → ∃ t, step s = .next t ∧ t.W = s.W

/-- `wait_done` polls (R91): in RUN it reads STATUS and stays the next action, in IDLE it reads STATUS and is done. -/
def Obligations.WaitDonePollsUntilIdle : Prop :=
  ∀ (s : State) (as : List (HostAction s.W)) (ts : List Turn), legalWidth s.W → s.env.rst = false →
    s.env.turns = .host :: ts → s.env.pending = .waitDone :: as →
    step s = .next { s with env := { s.env with
      turns := ts
      pending := if s.blk.phase = .run then .waitDone :: as else as
      returned := (0x4, s.blk.statusWord) :: s.env.returned } }

/-- The host assembly as register accesses (R90, R91): every register name stands for its offset of R51; a decimal value is
taken as `bits_W` of it and a pattern as it is, in a line on any register; a `cmd` line writes the OPCODE of R85 to CMD; the
pseudo-instructions are `wait_done`, one item that polls, and the expansions of `egcd` and `modinv`; the lines of a program
act in order. -/
def Obligations.HostAssemblyEncodings : Prop :=
  (RegName.A.offset = 0x0 ∧ RegName.B.offset = 0x1 ∧ RegName.CMD.offset = 0x2 ∧ RegName.CTRL.offset = 0x3 ∧
    RegName.STATUS.offset = 0x4 ∧ RegName.G.offset = 0x5 ∧ RegName.X.offset = 0x6 ∧ RegName.Y.offset = 0x7 ∧
    RegName.R.offset = 0x8 ∧ ∀ off : Offset, (RegName.at off).offset = off) ∧
  (∀ (W : Nat) (r : RegName) (n : Int), HostLine.actions W (.write r (.dec n)) = [.write r.offset (BitVec.ofInt W n)]) ∧
  (∀ (W : Nat) (r : RegName) (p : Nat), (HostLine.write r (.hex p)).wellFormed W →
    ∃ v : Word W, uval v = p ∧ HostLine.actions W (.write r (.hex p)) = [.write r.offset v]) ∧
  (∀ (W : Nat) (r : RegName), HostLine.actions W (.read r) = [.read r.offset]) ∧
  (∀ W : Nat,
    HostLine.actions W (.cmd .nop) = [.write 0x2 (BitVec.ofNat W 0x00)] ∧
    HostLine.actions W (.cmd .egcd) = [.write 0x2 (BitVec.ofNat W 0x01)] ∧
    HostLine.actions W (.cmd .modinv) = [.write 0x2 (BitVec.ofNat W 0x02)] ∧
    HostLine.actions W (.cmd .clrsts) = [.write 0x2 (BitVec.ofNat W 0x03)] ∧
    HostLine.actions W .waitDone = [.waitDone]) ∧
  (∀ (W : Nat) (a b : Literal),
    hostProgram W [.egcd a b] = hostProgram W [.write .A a, .write .B b, .cmd .egcd, .waitDone] ∧
    hostProgram W [.modinv a b] = hostProgram W [.write .A a, .write .B b, .cmd .modinv, .waitDone]) ∧
  (∀ (W : Nat) (l : HostLine) (ls : List HostLine), hostProgram W [] = [] ∧
    hostProgram W (l :: ls) = l.actions W ++ hostProgram W ls)

/-- The race of R169: with FINISH enabled and an EGCD write waiting, both orders are runs of the machine. Before FINISH the
write is dropped and OVR set; after it the command is accepted, OVR unchanged. -/
def Obligations.BothOrdersOfAWriteAndFinish : Prop :=
  ∀ (s : State) (v : Word s.W) (as : List (HostAction s.W)) (ts : List Turn), legalWidth s.W → s.env.rst = false →
    s.blk.phase = .run → s.blk.r1 = 0 → s.env.pending = .write cmdOffset v :: as → decode v = .instr .egcd →
    (∃ t, runFrom 2 (s.withTurns (.host :: .engine :: ts)) = .next t ∧
      t.blk.phase = .idle ∧ t.blk.DONE = true ∧ t.blk.OVR = true) ∧
    (∃ t, runFrom 2 (s.withTurns (.engine :: .host :: ts)) = .next t ∧
      t.blk.phase = .run ∧ t.blk.DONE = false ∧ t.blk.OVR = s.blk.OVR)

/-! ### Whole-machine rules -/

/-- The result registers change only at FINISH or by reset (R194, R23 to R26): otherwise G, X, Y, R are as before. At
FINISH, EGCD leaves R and MODINV leaves G, X, Y. -/
def Obligations.ResultsChangeOnlyAtFinish : Prop :=
  ∀ s t : State, step s = .next t → s.env.rst = false → t.env.rst = false →
    (s.blk.phase = .run ∧ s.blk.r1 = 0 ∧ t.blk.phase = .idle ∧ t.blk.DONE = true ∧
      (s.blk.op = .egcd → uval t.blk.R = uval s.blk.R) ∧
      (s.blk.op = .modinv →
        uval t.blk.G = uval s.blk.G ∧ uval t.blk.X = uval s.blk.X ∧ uval t.blk.Y = uval s.blk.Y) ∧
      (t.blk.ERR ≠ .none → uval t.blk.R = uval s.blk.R)) ∨
    (uval t.blk.G = uval s.blk.G ∧ uval t.blk.X = uval s.blk.X ∧ uval t.blk.Y = uval s.blk.Y ∧
      uval t.blk.R = uval s.blk.R)

/-- A, B and CTRL.IE change only by the host's write to their offsets, or by reset (R28, R21, R22). -/
def Obligations.OnlyTheHostWritesItsRegisters : Prop :=
  ∀ s t : State, step s = .next t → s.env.rst = false → t.env.rst = false →
    (uval t.blk.A = uval s.blk.A ∨
      ∃ v as, s.env.pending = .write 0x0 v :: as ∧ uval t.blk.A = uval v) ∧
    (uval t.blk.B = uval s.blk.B ∨
      ∃ v as, s.env.pending = .write 0x1 v :: as ∧ uval t.blk.B = uval v) ∧
    (t.blk.IE = s.blk.IE ∨
      ∃ v as, s.env.pending = .write 0x3 v :: as ∧ t.blk.IE = v.getLsbD 0)

/-- R38: phase goes from IDLE to RUN only by START, that is by an accepted EGCD or MODINV, and from RUN to IDLE only by
FINISH or reset. -/
def Obligations.PhaseChangesOnlyByStartAndFinish : Prop :=
  ∀ s t : State, step s = .next t → s.env.rst = false → t.env.rst = false →
    (s.blk.phase = .idle → t.blk.phase = .run →
      s.Issues (.instr .egcd) ∨ (s.Issues (.instr .modinv) ∧ 1 ≤ sval s.blk.B)) ∧
    (s.blk.phase = .run → t.blk.phase = .idle → s.blk.r1 = 0 ∧ t.blk.DONE = true)

/-- R33: DONE is set by the completions alone and cleared by acceptance, CLRSTS or reset alone. -/
def Obligations.DoneChangesOnlyAsStated : Prop :=
  ∀ s t : State, step s = .next t → s.env.rst = false → t.env.rst = false →
    (s.blk.DONE = false → t.blk.DONE = true →
      (s.blk.phase = .run ∧ s.blk.r1 = 0 ∧ t.blk.phase = .idle) ∨
      (s.blk.phase = .idle ∧ s.Issues (.instr .modinv) ∧ sval s.blk.B ≤ 0 ∧ t.blk.ERR = .badModulus) ∨
      (s.blk.phase = .idle ∧ (∃ c, s.Issues (.reserved c)) ∧ t.blk.ERR = .illegalCmd)) ∧
    (s.blk.DONE = true → t.blk.DONE = false →
      s.blk.phase = .idle ∧
      (s.Issues (.instr .egcd) ∨ (s.Issues (.instr .modinv) ∧ 1 ≤ sval s.blk.B) ∨
        s.Issues (.instr .clrsts)))

/-- R35: OVR is set only by a CMD write other than NOP in RUN, and cleared only by CLRSTS in IDLE, or by reset. -/
def Obligations.OvrChangesOnlyAsStated : Prop :=
  ∀ s t : State, step s = .next t → s.env.rst = false → t.env.rst = false →
    (s.blk.OVR = false → t.blk.OVR = true →
      s.blk.phase = .run ∧ ∃ c, s.Issues c ∧ c ≠ .instr .nop) ∧
    (s.blk.OVR = true → t.blk.OVR = false → s.blk.phase = .idle ∧ s.Issues (.instr .clrsts))

/-- The invariant of the machine holds at reset, at every legal width; at `State.reset` the width is log 1's. -/
def Obligations.ResetMeetsTheInvariant : Prop :=
  State.reset.Inv ∧ ∀ W : Nat, legalWidth W → (State.resetAt W).Inv

/-- Every step keeps the invariant, from every state that meets it: the results stay in the ranges of R117, ERR reads NONE
while DONE = 0, and a command in progress keeps the relations of R102 and the widths of R6. -/
def Obligations.StepKeepsTheInvariant : Prop :=
  ∀ s t : State, s.Inv → step s = .next t → t.Inv

/-- R199 with R105: from every state in RUN that no reset reaches, the engine gets to FINISH, whatever the host does and
however the agents interleave. -/
def Obligations.RunningCommandReachesFinish : Prop :=
  ∀ s : State, legalWidth s.W → s.NoReset → s.blk.phase = .run → s.FinishesWith fun _ => True

/-- The engine realises the source's first function: EGCD accepted in IDLE finishes, under every interleaving and whatever
the host writes meanwhile, with ERR = NONE, G, X, Y the values of extended_gcd on the operands as they stood at
acceptance, uval(G) their greatest common divisor and X, Y Bezout coefficients (R100 to R107). -/
def Obligations.EgcdRefinesExtendedGcd : Prop :=
  ∀ s : State, legalWidth s.W → s.NoReset → s.blk.phase = .idle →
    ∃ u, exec .egcd s = .next u ∧ u.FinishesWith fun t =>
      t.blk.ERR = .none ∧
      (uval t.blk.G : Int) = (extendedGcd (sval s.blk.A) (sval s.blk.B)).1 ∧
      sval t.blk.X = (extendedGcd (sval s.blk.A) (sval s.blk.B)).2.1 ∧
      sval t.blk.Y = (extendedGcd (sval s.blk.A) (sval s.blk.B)).2.2 ∧
      uval t.blk.G = Int.gcd (sval s.blk.A) (sval s.blk.B) ∧
      sval s.blk.A * sval t.blk.X + sval s.blk.B * sval t.blk.Y = uval t.blk.G ∧
      uval t.blk.R = uval s.blk.R

/-- The engine realises the source's second function: MODINV accepted in IDLE with m ≥ 1 finishes, under every interleaving,
with R the inverse and ERR = NONE when gcd(a, m) = 1, and with ERR = NO_INVERSE and R as it was when not. -/
def Obligations.ModinvRefinesModInverse : Prop :=
  ∀ s : State, legalWidth s.W → s.NoReset → s.blk.phase = .idle → 1 ≤ sval s.blk.B →
    ∃ u, exec .modinv s = .next u ∧ u.FinishesWith fun t =>
      (∀ r, modInverse (sval s.blk.A) (sval s.blk.B) = some r →
        t.blk.ERR = .none ∧ (uval t.blk.R : Int) = r) ∧
      (modInverse (sval s.blk.A) (sval s.blk.B) = none → t.blk.ERR = .noInverse ∧ uval t.blk.R = uval s.blk.R) ∧
      (Int.gcd (sval s.blk.A) (sval s.blk.B) = 1 ↔ t.blk.ERR = .none) ∧
      (Int.gcd (sval s.blk.A) (sval s.blk.B) = 1 →
        (uval t.blk.R : Int) < sval s.blk.B ∧
        fmod (sval s.blk.A * uval t.blk.R) (sval s.blk.B) = fmod 1 (sval s.blk.B)) ∧
      uval t.blk.G = uval s.blk.G ∧ uval t.blk.X = uval s.blk.X ∧ uval t.blk.Y = uval s.blk.Y

/-- The corner cases of R108, as values of the function EGCD realises. -/
def Obligations.ExtendedGcdCornerCases : Prop :=
  extendedGcd 0 0 = (0, 1, 0) ∧
  (∀ a : Int, a ≠ 0 → extendedGcd a 0 = (absVal a, if a < 0 then -1 else 1, 0)) ∧
  (∀ b : Int, b ≠ 0 → extendedGcd 0 b = (absVal b, 0, if b < 0 then -1 else 1)) ∧
  (∀ a b : Int, absVal a = absVal b → b ≠ 0 → extendedGcd a b = (absVal a, 0, if b < 0 then -1 else 1)) ∧
  (∀ a b : Int, absVal a < absVal b →
    extendedGcd a b = ((extendedGcd b a).1, (extendedGcd b a).2.2, (extendedGcd b a).2.1))

/-- The corner cases of R114, as values of the function MODINV realises: m = 1 gives 0, a multiple of m > 1 has no inverse,
and the result is that of the operand reduced modulo m. -/
def Obligations.ModInverseCornerCases : Prop :=
  (∀ a : Int, modInverse a 1 = some 0) ∧
  (∀ a m : Int, 1 < m → fmod a m = 0 → modInverse a m = none) ∧
  (∀ a m : Int, 1 ≤ m → modInverse a m = modInverse (fmod a m) m)

/-- R34, with the codes of R160: ERR changes only to NONE at acceptance or CLRSTS, to the outcome of the command at its
FINISH, to BAD_MODULUS or ILLEGAL_CMD with the completion that finds the error, or by reset. So a code stays until one of
these. -/
def Obligations.ErrChangesOnlyAsStated : Prop :=
  ∀ s t : State, step s = .next t → s.env.rst = false → t.env.rst = false → t.blk.ERR ≠ s.blk.ERR →
    (s.blk.phase = .idle ∧ t.blk.ERR = .none ∧ t.blk.DONE = false ∧
      (s.Issues (.instr .egcd) ∨ (s.Issues (.instr .modinv) ∧ 1 ≤ sval s.blk.B) ∨ s.Issues (.instr .clrsts))) ∨
    (s.blk.phase = .run ∧ s.blk.r1 = 0 ∧ t.blk.phase = .idle ∧ t.blk.DONE = true ∧
      ((s.blk.op = .modinv ∧ s.blk.r0 ≠ 1 ∧ t.blk.ERR = .noInverse) ∨
        ((s.blk.op = .egcd ∨ s.blk.r0 = 1) ∧ t.blk.ERR = .none))) ∨
    (s.blk.phase = .idle ∧ s.Issues (.instr .modinv) ∧ sval s.blk.B ≤ 0 ∧ t.blk.ERR = .badModulus ∧
      t.blk.DONE = true) ∨
    (s.blk.phase = .idle ∧ (∃ c, s.Issues (.reserved c)) ∧ t.blk.ERR = .illegalCmd ∧ t.blk.DONE = true)
end

