-- ==== Sys2Proof/Laws/Decode.lean ====
section
/-! SUPPORT. What the decoder and the encoder do, in terms of the number a word stands for. -/

namespace Sys2Proof

theorem legalWidth_iff {W : Nat} : legalWidth W = true ↔ 8 ≤ W := ⟨of_decide_eq_true, decide_eq_true⟩

theorem minWidth_le_of_legalWidth {W : Nat} (h : legalWidth W = true) : 8 ≤ W := of_decide_eq_true h

@[simp] theorem opcodeOf_toNat {W : Nat} (v : Word W) : (opcodeOf v).toNat = v.toNat % 256 := by
  simp [opcodeOf, BitVec.extractLsb'_toNat]

/-- The decoder sees the OPCODE and nothing else. -/
theorem decode_congr {V W : Nat} {v : Word V} {w : Word W} (h : opcodeOf v = opcodeOf w) : decode v = decode w := by
  simp only [decode, h]

/-- A word decodes to a command exactly when its OPCODE is that command's. -/
theorem decode_eq_instr {W : Nat} (v : Word W) (i : Instr) : decode v = .instr i ↔ opcodeOf v = opcode i := by
  unfold decode
  generalize opcodeOf v = c
  revert c i
  unfold decodeOpcode opcode
  intro i c
  cases i <;> split_ifs <;> simp_all

/-- A word decodes to a reserved OPCODE exactly when that OPCODE is its own, and lies above the assigned ones. -/
theorem decode_eq_reserved {W : Nat} (v : Word W) (c : Opcode) :
    decode v = .reserved c ↔ opcodeOf v = c ∧ 0x04 ≤ c := by
  unfold decode
  generalize opcodeOf v = d
  unfold decodeOpcode
  constructor
  · intro h
    split_ifs at h
    simp_all
    bv_omega
  · rintro ⟨rfl, h⟩
    split_ifs <;> simp_all

theorem opcode_toNat_lt (i : Instr) : (opcode i).toNat < 4 := by cases i <;> decide

/-- The encoder writes the OPCODE in the low byte and 0 above it (30_encoding.md R82). -/
theorem encode_toNat {W : Nat} (hW : 8 ≤ W) (i : Instr) : (encode W i).toNat = (opcode i).toNat := by
  rw [encode, BitVec.toNat_setWidth, Nat.mod_eq_of_lt]
  have h1 := opcode_toNat_lt i
  have h2 : 2 ^ 8 ≤ 2 ^ W := Nat.pow_le_pow_right (by decide) hW
  omega

theorem opcodeOf_encode {W : Nat} (hW : 8 ≤ W) (i : Instr) : opcodeOf (encode W i) = opcode i := by
  have := opcode_toNat_lt i
  apply BitVec.eq_of_toNat_eq
  rw [opcodeOf_toNat, encode_toNat hW]
  omega

end Sys2Proof
end

