-- ==== Sys2Proof/Laws/State.lean ====
section
/-! SUPPORT. One lemma per field per update of the state, true by rfl: no later proof unfolds a record update. -/

namespace Sys2Proof.Machine

section Block
variable {W : Nat} (b : Block W)

@[simp] theorem Block.drop_A : b.drop.A = b.A := rfl
@[simp] theorem Block.drop_B : b.drop.B = b.B := rfl
@[simp] theorem Block.drop_G : b.drop.G = b.G := rfl
@[simp] theorem Block.drop_X : b.drop.X = b.X := rfl
@[simp] theorem Block.drop_Y : b.drop.Y = b.Y := rfl
@[simp] theorem Block.drop_R : b.drop.R = b.R := rfl
@[simp] theorem Block.drop_IE : b.drop.IE = b.IE := rfl
@[simp] theorem Block.drop_DONE : b.drop.DONE = b.DONE := rfl
@[simp] theorem Block.drop_ERR : b.drop.ERR = b.ERR := rfl
@[simp] theorem Block.drop_OVR : b.drop.OVR = true := rfl
@[simp] theorem Block.drop_phase : b.drop.phase = b.phase := rfl
@[simp] theorem Block.drop_r0 : b.drop.r0 = b.r0 := rfl
@[simp] theorem Block.drop_r1 : b.drop.r1 = b.r1 := rfl
@[simp] theorem Block.drop_x0 : b.drop.x0 = b.x0 := rfl
@[simp] theorem Block.drop_x1 : b.drop.x1 = b.x1 := rfl
@[simp] theorem Block.drop_y0 : b.drop.y0 = b.y0 := rfl
@[simp] theorem Block.drop_y1 : b.drop.y1 = b.y1 := rfl
@[simp] theorem Block.drop_op : b.drop.op = b.op := rfl
@[simp] theorem Block.drop_sa : b.drop.sa = b.sa := rfl
@[simp] theorem Block.drop_sb : b.drop.sb = b.sb := rfl
@[simp] theorem Block.drop_mreg : b.drop.mreg = b.mreg := rfl

@[simp] theorem Block.complete_A (code : Err) : (b.complete code).A = b.A := rfl
@[simp] theorem Block.complete_B (code : Err) : (b.complete code).B = b.B := rfl
@[simp] theorem Block.complete_G (code : Err) : (b.complete code).G = b.G := rfl
@[simp] theorem Block.complete_X (code : Err) : (b.complete code).X = b.X := rfl
@[simp] theorem Block.complete_Y (code : Err) : (b.complete code).Y = b.Y := rfl
@[simp] theorem Block.complete_R (code : Err) : (b.complete code).R = b.R := rfl
@[simp] theorem Block.complete_IE (code : Err) : (b.complete code).IE = b.IE := rfl
@[simp] theorem Block.complete_DONE (code : Err) : (b.complete code).DONE = true := rfl
@[simp] theorem Block.complete_ERR (code : Err) : (b.complete code).ERR = code := rfl
@[simp] theorem Block.complete_OVR (code : Err) : (b.complete code).OVR = b.OVR := rfl
@[simp] theorem Block.complete_phase (code : Err) : (b.complete code).phase = .idle := rfl
@[simp] theorem Block.complete_r0 (code : Err) : (b.complete code).r0 = b.r0 := rfl
@[simp] theorem Block.complete_r1 (code : Err) : (b.complete code).r1 = b.r1 := rfl
@[simp] theorem Block.complete_x0 (code : Err) : (b.complete code).x0 = b.x0 := rfl
@[simp] theorem Block.complete_x1 (code : Err) : (b.complete code).x1 = b.x1 := rfl
@[simp] theorem Block.complete_y0 (code : Err) : (b.complete code).y0 = b.y0 := rfl
@[simp] theorem Block.complete_y1 (code : Err) : (b.complete code).y1 = b.y1 := rfl
@[simp] theorem Block.complete_op (code : Err) : (b.complete code).op = b.op := rfl
@[simp] theorem Block.complete_sa (code : Err) : (b.complete code).sa = b.sa := rfl
@[simp] theorem Block.complete_sb (code : Err) : (b.complete code).sb = b.sb := rfl
@[simp] theorem Block.complete_mreg (code : Err) : (b.complete code).mreg = b.mreg := rfl

@[simp] theorem Block.completeError_A (code : Err) : (b.completeError code).A = b.A := rfl
@[simp] theorem Block.completeError_B (code : Err) : (b.completeError code).B = b.B := rfl
@[simp] theorem Block.completeError_G (code : Err) : (b.completeError code).G = b.G := rfl
@[simp] theorem Block.completeError_X (code : Err) : (b.completeError code).X = b.X := rfl
@[simp] theorem Block.completeError_Y (code : Err) : (b.completeError code).Y = b.Y := rfl
@[simp] theorem Block.completeError_R (code : Err) : (b.completeError code).R = b.R := rfl
@[simp] theorem Block.completeError_IE (code : Err) : (b.completeError code).IE = b.IE := rfl
@[simp] theorem Block.completeError_DONE (code : Err) : (b.completeError code).DONE = true := rfl
@[simp] theorem Block.completeError_ERR (code : Err) : (b.completeError code).ERR = code := rfl
@[simp] theorem Block.completeError_OVR (code : Err) : (b.completeError code).OVR = b.OVR := rfl
@[simp] theorem Block.completeError_phase (code : Err) : (b.completeError code).phase = .idle := rfl
@[simp] theorem Block.completeError_r0 (code : Err) : (b.completeError code).r0 = b.r0 := rfl
@[simp] theorem Block.completeError_r1 (code : Err) : (b.completeError code).r1 = b.r1 := rfl
@[simp] theorem Block.completeError_x0 (code : Err) : (b.completeError code).x0 = b.x0 := rfl
@[simp] theorem Block.completeError_x1 (code : Err) : (b.completeError code).x1 = b.x1 := rfl
@[simp] theorem Block.completeError_y0 (code : Err) : (b.completeError code).y0 = b.y0 := rfl
@[simp] theorem Block.completeError_y1 (code : Err) : (b.completeError code).y1 = b.y1 := rfl
@[simp] theorem Block.completeError_op (code : Err) : (b.completeError code).op = b.op := rfl
@[simp] theorem Block.completeError_sa (code : Err) : (b.completeError code).sa = b.sa := rfl
@[simp] theorem Block.completeError_sb (code : Err) : (b.completeError code).sb = b.sb := rfl
@[simp] theorem Block.completeError_mreg (code : Err) : (b.completeError code).mreg = b.mreg := rfl

@[simp] theorem Block.clearOutcome_A : b.clearOutcome.A = b.A := rfl
@[simp] theorem Block.clearOutcome_B : b.clearOutcome.B = b.B := rfl
@[simp] theorem Block.clearOutcome_G : b.clearOutcome.G = b.G := rfl
@[simp] theorem Block.clearOutcome_X : b.clearOutcome.X = b.X := rfl
@[simp] theorem Block.clearOutcome_Y : b.clearOutcome.Y = b.Y := rfl
@[simp] theorem Block.clearOutcome_R : b.clearOutcome.R = b.R := rfl
@[simp] theorem Block.clearOutcome_IE : b.clearOutcome.IE = b.IE := rfl
@[simp] theorem Block.clearOutcome_DONE : b.clearOutcome.DONE = false := rfl
@[simp] theorem Block.clearOutcome_ERR : b.clearOutcome.ERR = .none := rfl
@[simp] theorem Block.clearOutcome_OVR : b.clearOutcome.OVR = b.OVR := rfl
@[simp] theorem Block.clearOutcome_phase : b.clearOutcome.phase = b.phase := rfl
@[simp] theorem Block.clearOutcome_r0 : b.clearOutcome.r0 = b.r0 := rfl
@[simp] theorem Block.clearOutcome_r1 : b.clearOutcome.r1 = b.r1 := rfl
@[simp] theorem Block.clearOutcome_x0 : b.clearOutcome.x0 = b.x0 := rfl
@[simp] theorem Block.clearOutcome_x1 : b.clearOutcome.x1 = b.x1 := rfl
@[simp] theorem Block.clearOutcome_y0 : b.clearOutcome.y0 = b.y0 := rfl
@[simp] theorem Block.clearOutcome_y1 : b.clearOutcome.y1 = b.y1 := rfl
@[simp] theorem Block.clearOutcome_op : b.clearOutcome.op = b.op := rfl
@[simp] theorem Block.clearOutcome_sa : b.clearOutcome.sa = b.sa := rfl
@[simp] theorem Block.clearOutcome_sb : b.clearOutcome.sb = b.sb := rfl
@[simp] theorem Block.clearOutcome_mreg : b.clearOutcome.mreg = b.mreg := rfl

@[simp] theorem Block.clearStatus_A : b.clearStatus.A = b.A := rfl
@[simp] theorem Block.clearStatus_B : b.clearStatus.B = b.B := rfl
@[simp] theorem Block.clearStatus_G : b.clearStatus.G = b.G := rfl
@[simp] theorem Block.clearStatus_X : b.clearStatus.X = b.X := rfl
@[simp] theorem Block.clearStatus_Y : b.clearStatus.Y = b.Y := rfl
@[simp] theorem Block.clearStatus_R : b.clearStatus.R = b.R := rfl
@[simp] theorem Block.clearStatus_IE : b.clearStatus.IE = b.IE := rfl
@[simp] theorem Block.clearStatus_DONE : b.clearStatus.DONE = false := rfl
@[simp] theorem Block.clearStatus_ERR : b.clearStatus.ERR = .none := rfl
@[simp] theorem Block.clearStatus_OVR : b.clearStatus.OVR = false := rfl
@[simp] theorem Block.clearStatus_phase : b.clearStatus.phase = b.phase := rfl
@[simp] theorem Block.clearStatus_r0 : b.clearStatus.r0 = b.r0 := rfl
@[simp] theorem Block.clearStatus_r1 : b.clearStatus.r1 = b.r1 := rfl
@[simp] theorem Block.clearStatus_x0 : b.clearStatus.x0 = b.x0 := rfl
@[simp] theorem Block.clearStatus_x1 : b.clearStatus.x1 = b.x1 := rfl
@[simp] theorem Block.clearStatus_y0 : b.clearStatus.y0 = b.y0 := rfl
@[simp] theorem Block.clearStatus_y1 : b.clearStatus.y1 = b.y1 := rfl
@[simp] theorem Block.clearStatus_op : b.clearStatus.op = b.op := rfl
@[simp] theorem Block.clearStatus_sa : b.clearStatus.sa = b.sa := rfl
@[simp] theorem Block.clearStatus_sb : b.clearStatus.sb = b.sb := rfl
@[simp] theorem Block.clearStatus_mreg : b.clearStatus.mreg = b.mreg := rfl

@[simp] theorem Block.start_A (o : Op) (a m : Word W) : (b.start o a m).A = b.A := rfl
@[simp] theorem Block.start_B (o : Op) (a m : Word W) : (b.start o a m).B = b.B := rfl
@[simp] theorem Block.start_G (o : Op) (a m : Word W) : (b.start o a m).G = b.G := rfl
@[simp] theorem Block.start_X (o : Op) (a m : Word W) : (b.start o a m).X = b.X := rfl
@[simp] theorem Block.start_Y (o : Op) (a m : Word W) : (b.start o a m).Y = b.Y := rfl
@[simp] theorem Block.start_R (o : Op) (a m : Word W) : (b.start o a m).R = b.R := rfl
@[simp] theorem Block.start_IE (o : Op) (a m : Word W) : (b.start o a m).IE = b.IE := rfl
@[simp] theorem Block.start_DONE (o : Op) (a m : Word W) : (b.start o a m).DONE = b.DONE := rfl
@[simp] theorem Block.start_ERR (o : Op) (a m : Word W) : (b.start o a m).ERR = b.ERR := rfl
@[simp] theorem Block.start_OVR (o : Op) (a m : Word W) : (b.start o a m).OVR = b.OVR := rfl
@[simp] theorem Block.start_phase (o : Op) (a m : Word W) : (b.start o a m).phase = .run := rfl
@[simp] theorem Block.start_r0 (o : Op) (a m : Word W) : (b.start o a m).r0 = absVal (sval a) := rfl
@[simp] theorem Block.start_r1 (o : Op) (a m : Word W) : (b.start o a m).r1 = absVal (sval m) := rfl
@[simp] theorem Block.start_x0 (o : Op) (a m : Word W) : (b.start o a m).x0 = 1 := rfl
@[simp] theorem Block.start_x1 (o : Op) (a m : Word W) : (b.start o a m).x1 = 0 := rfl
@[simp] theorem Block.start_y0 (o : Op) (a m : Word W) : (b.start o a m).y0 = 0 := rfl
@[simp] theorem Block.start_y1 (o : Op) (a m : Word W) : (b.start o a m).y1 = 1 := rfl
@[simp] theorem Block.start_op (o : Op) (a m : Word W) : (b.start o a m).op = o := rfl
@[simp] theorem Block.start_sa (o : Op) (a m : Word W) : (b.start o a m).sa = decide (sval a < 0) := rfl
@[simp] theorem Block.start_sb (o : Op) (a m : Word W) : (b.start o a m).sb = decide (sval m < 0) := rfl
@[simp] theorem Block.start_mreg (o : Op) (a m : Word W) : (b.start o a m).mreg = m := rfl

@[simp] theorem Block.iter_A : b.iter.A = b.A := rfl
@[simp] theorem Block.iter_B : b.iter.B = b.B := rfl
@[simp] theorem Block.iter_G : b.iter.G = b.G := rfl
@[simp] theorem Block.iter_X : b.iter.X = b.X := rfl
@[simp] theorem Block.iter_Y : b.iter.Y = b.Y := rfl
@[simp] theorem Block.iter_R : b.iter.R = b.R := rfl
@[simp] theorem Block.iter_IE : b.iter.IE = b.IE := rfl
@[simp] theorem Block.iter_DONE : b.iter.DONE = b.DONE := rfl
@[simp] theorem Block.iter_ERR : b.iter.ERR = b.ERR := rfl
@[simp] theorem Block.iter_OVR : b.iter.OVR = b.OVR := rfl
@[simp] theorem Block.iter_phase : b.iter.phase = b.phase := rfl
@[simp] theorem Block.iter_r0 : b.iter.r0 = b.r1 := rfl
@[simp] theorem Block.iter_r1 : b.iter.r1 = b.r0 - b.r0 / b.r1 * b.r1 := rfl
@[simp] theorem Block.iter_x0 : b.iter.x0 = b.x1 := rfl
@[simp] theorem Block.iter_x1 : b.iter.x1 = b.x0 - b.r0 / b.r1 * b.x1 := rfl
@[simp] theorem Block.iter_y0 : b.iter.y0 = b.y1 := rfl
@[simp] theorem Block.iter_y1 : b.iter.y1 = b.y0 - b.r0 / b.r1 * b.y1 := rfl
@[simp] theorem Block.iter_op : b.iter.op = b.op := rfl
@[simp] theorem Block.iter_sa : b.iter.sa = b.sa := rfl
@[simp] theorem Block.iter_sb : b.iter.sb = b.sb := rfl
@[simp] theorem Block.iter_mreg : b.iter.mreg = b.mreg := rfl

end Block

section State
variable (s : State)

@[simp] theorem State.withBlk_W (b : Block s.W) : (s.withBlk b).W = s.W := rfl
@[simp] theorem State.withBlk_blk (b : Block s.W) : (s.withBlk b).blk = b := rfl
@[simp] theorem State.withBlk_env (b : Block s.W) : (s.withBlk b).env = s.env := rfl
@[simp] theorem State.withBlk_self : s.withBlk s.blk = s := rfl
@[simp] theorem State.withBlk_withBlk (b c : Block s.W) : (s.withBlk b).withBlk c = s.withBlk c := rfl

@[simp] theorem State.withPending_W (as : List (HostAction s.W)) : (s.withPending as).W = s.W := rfl
@[simp] theorem State.withPending_blk (as : List (HostAction s.W)) : (s.withPending as).blk = s.blk := rfl
@[simp] theorem State.withPending_pending (as : List (HostAction s.W)) : (s.withPending as).env.pending = as := rfl
@[simp] theorem State.withPending_rst (as : List (HostAction s.W)) : (s.withPending as).env.rst = s.env.rst := rfl
@[simp] theorem State.withPending_turns (as : List (HostAction s.W)) : (s.withPending as).env.turns = s.env.turns := rfl
@[simp] theorem State.withPending_returned (as : List (HostAction s.W)) :
    (s.withPending as).env.returned = s.env.returned := rfl
@[simp] theorem State.withPending_tick (as : List (HostAction s.W)) : (s.withPending as).env.tick = s.env.tick := rfl

@[simp] theorem State.withTurns_W (ts : List Turn) : (s.withTurns ts).W = s.W := rfl
@[simp] theorem State.withTurns_blk (ts : List Turn) : (s.withTurns ts).blk = s.blk := rfl
@[simp] theorem State.withTurns_pending (ts : List Turn) : (s.withTurns ts).env.pending = s.env.pending := rfl
@[simp] theorem State.withTurns_rst (ts : List Turn) : (s.withTurns ts).env.rst = s.env.rst := rfl
@[simp] theorem State.withTurns_turns (ts : List Turn) : (s.withTurns ts).env.turns = ts := rfl
@[simp] theorem State.withTurns_returned (ts : List Turn) : (s.withTurns ts).env.returned = s.env.returned := rfl
@[simp] theorem State.withTurns_tick (ts : List Turn) : (s.withTurns ts).env.tick = s.env.tick := rfl

@[simp] theorem State.recordRead_W (off : Offset) : (s.recordRead off).W = s.W := rfl
@[simp] theorem State.recordRead_blk (off : Offset) : (s.recordRead off).blk = s.blk := rfl
@[simp] theorem State.recordRead_pending (off : Offset) : (s.recordRead off).env.pending = s.env.pending := rfl
@[simp] theorem State.recordRead_rst (off : Offset) : (s.recordRead off).env.rst = s.env.rst := rfl
@[simp] theorem State.recordRead_turns (off : Offset) : (s.recordRead off).env.turns = s.env.turns := rfl
@[simp] theorem State.recordRead_returned (off : Offset) :
    (s.recordRead off).env.returned = (off, s.blk.readReg off) :: s.env.returned := rfl

@[simp] theorem engineTurn_W : (engineTurn s).W = s.W := rfl
@[simp] theorem engineTurn_blk : (engineTurn s).blk = s.blk.engineStep := rfl
@[simp] theorem engineTurn_env : (engineTurn s).env = s.env := rfl

@[simp] theorem rstTurn_W (level : Bool) : (rstTurn level s).W = s.W := rfl
@[simp] theorem rstTurn_true_blk : (rstTurn true s).blk = Block.reset s.W := rfl
@[simp] theorem rstTurn_false_blk : (rstTurn false s).blk = s.blk := rfl
@[simp] theorem rstTurn_rst (level : Bool) : (rstTurn level s).env.rst = level := rfl

@[simp] theorem State.resetAt_W (W : Nat) : (State.resetAt W).W = W := rfl
@[simp] theorem State.resetAt_blk (W : Nat) : (State.resetAt W).blk = Block.reset W := rfl
@[simp] theorem State.resetAt_env (W : Nat) : (State.resetAt W).env = Env.quiet W := rfl

end State

end Sys2Proof.Machine
end

