-- ==== Sys2Proof/Laws/Word.lean ====
section
/-! SUPPORT. The arithmetic of the engine: narrowing a value that fits and reading it back, and the small facts about
abs, fmod and the division step. -/

namespace Sys2Proof.Machine

theorem absVal_nonneg (n : Int) : 0 ≤ absVal n := by unfold absVal; omega

theorem absVal_eq_abs (n : Int) : absVal n = |n| := Int.natCast_natAbs n

/-- The sign step makes the coefficient of `|a|` one of `a` (40_euclid.md R104). -/
theorem mul_signFix (a c : Int) : a * signFix (decide (a < 0)) c = absVal a * c := by
  unfold signFix
  by_cases h : a < 0
  · rw [absVal_eq_abs, abs_of_neg h]; simp [h]
  · rw [absVal_eq_abs, abs_of_nonneg (by omega)]; simp [h]

theorem absVal_signFix (n : Bool) (c : Int) : absVal (signFix n c) = absVal c := by
  unfold signFix absVal; split <;> omega

/-- The remainder of a division step is non-negative and smaller than the divisor, in size (40_euclid.md R105). -/
theorem iter_remainder (r0 r1 : Int) (h : r1 ≠ 0) :
    0 ≤ r0 - r0 / r1 * r1 ∧ r0 - r0 / r1 * r1 < absVal r1 := by
  have e : r0 - r0 / r1 * r1 = r0 % r1 := by rw [Int.emod_def, mul_comm]
  rw [e, absVal_eq_abs]
  exact ⟨Int.emod_nonneg r0 h, Int.emod_lt_abs r0 h⟩

theorem two_pow_pred {W : Nat} (hW : 1 ≤ W) : (2 : Int) ^ W = 2 * 2 ^ (W - 1) := by
  obtain ⟨n, rfl⟩ : ∃ n, W = n + 1 := ⟨W - 1, by omega⟩
  rw [Nat.add_sub_cancel, pow_succ]; ring

/-- A non-negative value below `2^W` is read back unsigned (00_scope.md R9). -/
theorem uval_bitsW {W : Nat} {n : Int} (h0 : 0 ≤ n) (h1 : n < 2 ^ W) : (uval (bitsW W n) : Int) = n := by
  unfold uval bitsW
  rw [BitVec.toNat_ofInt, Int.toNat_of_nonneg (Int.emod_nonneg _ (by positivity))]
  push_cast
  exact Int.emod_eq_of_lt h0 h1

/-- A value in `[−2^(W−1), 2^(W−1))` is read back signed (00_scope.md R9). -/
theorem sval_bitsW {W : Nat} (hW : 1 ≤ W) {n : Int} (h0 : -2 ^ (W - 1) ≤ n) (h1 : n < 2 ^ (W - 1)) :
    sval (bitsW W n) = n := by
  unfold sval bitsW
  rw [BitVec.toInt_ofInt]
  have e := two_pow_pred hW
  apply Int.bmod_eq_of_le <;> push_cast <;> omega

/-- The range of a signed operand (10_state.md R21). -/
theorem sval_range {W : Nat} (v : Word W) :
    -2 ^ (W - 1) ≤ sval v ∧ sval v < 2 ^ (W - 1) := by
  unfold sval
  refine ⟨?_, ?_⟩
  · simpa using BitVec.le_toInt v
  · simpa using BitVec.toInt_lt (x := v)

theorem fmod_range (n : Int) {m : Int} (hm : 1 ≤ m) : 0 ≤ fmod n m ∧ fmod n m < m :=
  ⟨Int.emod_nonneg n (by omega), Int.emod_lt_of_pos n (by omega)⟩

end Sys2Proof.Machine
end

