-- ==== Sys2Proof/Laws/Ops.lean ====
section
/-! SUPPORT. For each shared operation, one lemma that says everything it can do. The proofs cite these and do not unfold
the operation. -/

namespace Sys2Proof.Machine

section Block
variable {W : Nat} (b : Block W)

/-- A command but NOP is dropped in RUN and acts in IDLE (41_control.md R140). -/
theorem Block.unlessBusy_cases (act : Block W) :
    (b.phase = .run ∧ b.unlessBusy act = b.drop) ∨ (b.phase = .idle ∧ b.unlessBusy act = act) := by
  unfold Block.unlessBusy
  cases h : b.phase <;> simp

theorem Block.unlessBusy_run (act : Block W) (h : b.phase = .run) : b.unlessBusy act = b.drop := by
  simp [Block.unlessBusy, h]

theorem Block.unlessBusy_idle (act : Block W) (h : b.phase = .idle) : b.unlessBusy act = act := by
  simp [Block.unlessBusy, h]

/-- Acceptance is a bad modulus or a start (40_euclid.md R100). -/
theorem Block.accept_cases (op : Op) :
    (op = .modinv ∧ sval b.B ≤ 0 ∧ b.accept op = b.completeError .badModulus) ∨
    ((op = .modinv → 1 ≤ sval b.B) ∧ b.accept op = b.clearOutcome.start op b.A b.B) := by
  unfold Block.accept
  split_ifs with h
  · exact .inl ⟨h.1, h.2, rfl⟩
  · exact .inr ⟨fun e => by by_contra hc; exact h ⟨e, by omega⟩, rfl⟩

theorem Block.accept_start (op : Op) (h : op = .modinv → 1 ≤ sval b.B) :
    b.accept op = b.clearOutcome.start op b.A b.B := by
  rcases b.accept_cases op with ⟨e, hB, -⟩ | ⟨-, e⟩
  · have := h e; omega
  · exact e

/-- An engine step is none, ITER or FINISH (10_state.md R38; 40_euclid.md R102, R103). -/
theorem Block.engineStep_cases :
    (b.phase = .idle ∧ b.engineStep = b) ∨
    (b.phase = .run ∧ b.r1 ≠ 0 ∧ b.engineStep = b.iter) ∨
    (b.phase = .run ∧ b.r1 = 0 ∧ b.engineStep = b.finish) := by
  unfold Block.engineStep
  cases h : b.phase
  · exact .inl ⟨rfl, rfl⟩
  · by_cases h1 : b.r1 = 0
    · exact .inr (.inr ⟨rfl, h1, by simp [h1]⟩)
    · exact .inr (.inl ⟨rfl, h1, by simp [h1]⟩)

theorem Block.engineStep_idle (h : b.phase = .idle) : b.engineStep = b := by
  simp [Block.engineStep, h]

theorem Block.engineStep_iter (h : b.phase = .run) (h1 : b.r1 ≠ 0) : b.engineStep = b.iter := by
  simp [Block.engineStep, h, h1]

theorem Block.engineStep_finish (h : b.phase = .run) (h1 : b.r1 = 0) : b.engineStep = b.finish := by
  simp [Block.engineStep, h, h1]

theorem Block.finish_egcd (h : b.op = .egcd) : b.finish = b.finishEgcd := by
  unfold Block.finish; rw [h]

theorem Block.finish_modinv (h : b.op = .modinv) : b.finish = b.finishModinv := by
  unfold Block.finish; rw [h]

/-- FINISH is that of EGCD, or MODINV's success, or NO_INVERSE (40_euclid.md R103). -/
theorem Block.finish_cases :
    (b.op = .egcd ∧ b.finish =
      ({ b with G := bitsW W b.r0, X := bitsW W b.coeffA, Y := bitsW W b.coeffB } : Block W).complete .none) ∨
    (b.op = .modinv ∧ b.r0 = 1 ∧ b.finish =
      ({ b with R := bitsW W (fmod b.coeffA (sval b.mreg)) } : Block W).complete .none) ∨
    (b.op = .modinv ∧ b.r0 ≠ 1 ∧ b.finish = b.complete .noInverse) := by
  have hop : b.op = .egcd ∨ b.op = .modinv := by cases b.op <;> simp
  rcases hop with h | h
  · exact .inl ⟨h, b.finish_egcd h⟩
  · by_cases h1 : b.r0 = 1
    · exact .inr (.inl ⟨h, h1, (b.finish_modinv h).trans (if_pos h1)⟩)
    · exact .inr (.inr ⟨h, h1, (b.finish_modinv h).trans (if_neg h1)⟩)

end Block

section State
variable (s : State)

theorem goto_eq (b : Block s.W) : s.goto b = .next (s.withBlk b) := rfl

/-- A command leaves a next state in which only the block has changed. -/
theorem exec_next (i : Instr) : ∃ b : Block s.W, exec i s = .next (s.withBlk b) := by
  cases i
  · exact ⟨s.blk, rfl⟩
  · exact ⟨_, rfl⟩
  · exact ⟨_, rfl⟩
  · exact ⟨_, rfl⟩

/-- The issue of a word is the command it decodes to, or the illegal command (41_control.md R140). -/
theorem issue_cases (v : Word s.W) :
    (∃ i, decode v = .instr i ∧ issue s v = exec i s) ∨
    (∃ c, decode v = .reserved c ∧ issue s v = execReserved s) := by
  unfold issue
  cases h : decode v with
  | instr i => exact .inl ⟨i, rfl, rfl⟩
  | reserved c => exact .inr ⟨c, rfl, rfl⟩

theorem issue_instr {v : Word s.W} {i : Instr} (h : decode v = .instr i) : issue s v = exec i s := by
  unfold issue; split <;> simp_all

theorem issue_reserved {v : Word s.W} {c : Opcode} (h : decode v = .reserved c) : issue s v = execReserved s := by
  unfold issue; split <;> simp_all

theorem issue_next (v : Word s.W) : ∃ b : Block s.W, issue s v = .next (s.withBlk b) := by
  rcases issue_cases s v with ⟨i, -, h⟩ | ⟨c, -, h⟩ <;> rw [h]
  · exact exec_next s i
  · exact ⟨_, rfl⟩

/-- A register write sets A, B or IE, issues a command, or does nothing (20_memory.md R51, R53). -/
theorem regWrite_cases (off : Offset) (v : Word s.W) :
    (off = 0x0 ∧ regWrite s off v = .next (s.withBlk { s.blk with A := v })) ∨
    (off = 0x1 ∧ regWrite s off v = .next (s.withBlk { s.blk with B := v })) ∨
    (off = 0x2 ∧ regWrite s off v = issue s v) ∨
    (off = 0x3 ∧ regWrite s off v = .next (s.withBlk { s.blk with IE := v.getLsbD 0 })) ∨
    (0x4 ≤ off ∧ regWrite s off v = .next s) := by
  obtain ⟨n, hn⟩ := off
  interval_cases n
  · exact .inl ⟨rfl, rfl⟩
  · exact .inr (.inl ⟨rfl, rfl⟩)
  · exact .inr (.inr (.inl ⟨rfl, rfl⟩))
  · exact .inr (.inr (.inr (.inl ⟨rfl, rfl⟩)))
  all_goals exact .inr (.inr (.inr (.inr ⟨by simp [BitVec.le_def], rfl⟩)))

theorem regWrite_next (off : Offset) (v : Word s.W) : ∃ b : Block s.W, regWrite s off v = .next (s.withBlk b) := by
  rcases regWrite_cases s off v with ⟨-, h⟩ | ⟨-, h⟩ | ⟨-, h⟩ | ⟨-, h⟩ | ⟨-, h⟩ <;> rw [h]
  · exact ⟨_, rfl⟩
  · exact ⟨_, rfl⟩
  · exact issue_next s v
  · exact ⟨_, rfl⟩
  · exact ⟨s.blk, rfl⟩

/-- Taking the next turn changes the settled turns and the burst counter, nothing else. -/
theorem schedule_state : ∃ e : Env s.W, s.schedule.2 = ⟨s.W, s.blk, e⟩ ∧ e.rst = s.env.rst ∧
    e.pending = s.env.pending ∧ e.returned = s.env.returned := by
  unfold State.schedule
  split
  · exact ⟨_, rfl, rfl, rfl, rfl⟩
  · split
    · exact ⟨_, rfl, rfl, rfl, rfl⟩
    · exact ⟨_, rfl, rfl, rfl, rfl⟩
    · split <;> exact ⟨_, rfl, rfl, rfl, rfl⟩

theorem schedule_settled (t : Turn) (ts : List Turn) (h : s.env.turns = t :: ts) :
    s.schedule = (t, s.withTurns ts) := by
  unfold State.schedule; rw [h]

/-- With no turn settled in IDLE, the host moves (log 5). -/
theorem schedule_idle (ht : s.env.turns = []) (hp : s.blk.phase = .idle) : s.schedule = (.host, s) := by
  unfold State.schedule; rw [ht]; simp only [hp]

theorem settle_of_released (h : s.env.rst = false) : s.settle = s := by simp [State.settle, h]

theorem settle_of_asserted (h : s.env.rst = true) : s.settle = s.withBlk (Block.reset s.W) := by
  simp [State.settle, h]

theorem settle_W : s.settle.W = s.W := by
  cases h : s.env.rst
  · rw [settle_of_released s h]
  · rw [settle_of_asserted s h]

/-- Where the width is legal and `rst` released, a step is what the next turn does. -/
theorem step_released (hW : legalWidth s.W = true) (h : s.env.rst = false) :
    step s = perform s.schedule.1 s.schedule.2 := by
  rw [step, if_pos hW, settle_of_released s h]

theorem step_settled (hW : legalWidth s.W = true) (h : s.env.rst = false) (t : Turn) (ts : List Turn)
    (ht : s.env.turns = t :: ts) : step s = perform t (s.withTurns ts) := by
  rw [step_released s hW h, schedule_settled s t ts ht]

/-- One turn of the host: nothing for the block, or a register write. -/
theorem hostTurn_cases :
    (∃ e : Env s.W, hostTurn s = .next ⟨s.W, s.blk, e⟩ ∧ e.rst = s.env.rst ∧ e.turns = s.env.turns) ∨
    (∃ off v as, s.env.pending = .write off v :: as ∧ s.env.rst = false ∧
      hostTurn s = regWrite (s.withPending as) off v) := by
  unfold hostTurn
  split
  · exact .inl ⟨_, rfl, rfl, rfl⟩
  · exact .inl ⟨_, rfl, rfl, rfl⟩
  · next off v as h =>
    cases hr : s.env.rst
    · exact .inr ⟨off, v, as, h, rfl, by simp⟩
    · exact .inl ⟨(s.withPending as).env, by rw [if_pos rfl], hr, rfl⟩
  · split <;> exact .inl ⟨_, rfl, rfl, rfl⟩

/-- While `rst` is asserted a host turn leaves it asserted and the block as it is (70_reset_and_hazards.md R190). -/
theorem hostTurn_asserted (hr : s.env.rst = true) :
    ∃ e : Env s.W, hostTurn s = .next ⟨s.W, s.blk, e⟩ ∧ e.rst = true := by
  rcases hostTurn_cases s with ⟨e, h, he, -⟩ | ⟨_, _, _, _, hr', -⟩
  · exact ⟨e, h, he.trans hr⟩
  · exact absurd (hr.symm.trans hr') (by simp)

/-- A pending write is carried out on the host's turn (20_memory.md R53). -/
theorem hostTurn_write {off : Offset} {v : Word s.W} {as : List (HostAction s.W)} (hr : s.env.rst = false)
    (hp : s.env.pending = .write off v :: as) : hostTurn s = regWrite (s.withPending as) off v := by
  unfold hostTurn; rw [hp]; simp [hr]

/-- EVERYTHING A STEP CAN DO while `rst` is released, for the block: nothing, the engine's step, a register write that the
host had pending, or the assertion of reset. -/
theorem step_cases {t : State} (h : step s = .next t) (hr : s.env.rst = false) :
    legalWidth s.W = true ∧
    ((∃ e : Env s.W, t = ⟨s.W, s.blk, e⟩ ∧ e.rst = false) ∨
     (∃ e : Env s.W, t = ⟨s.W, s.blk.engineStep, e⟩ ∧ e.rst = false) ∨
     (∃ (e : Env s.W) (off : Offset) (v : Word s.W) (as : List (HostAction s.W)),
        s.env.pending = .write off v :: as ∧ e.rst = false ∧ regWrite ⟨s.W, s.blk, e⟩ off v = .next t) ∨
     (∃ e : Env s.W, t = ⟨s.W, Block.reset s.W, e⟩ ∧ e.rst = true)) := by
  by_cases hW : legalWidth s.W = true
  · refine ⟨hW, ?_⟩
    rw [step_released s hW hr] at h
    obtain ⟨e, he, h1, h2, -⟩ := schedule_state s
    rw [he] at h
    cases ht : s.schedule.1 with
    | host =>
      rw [ht] at h
      rcases hostTurn_cases ⟨s.W, s.blk, e⟩ with ⟨e', h', hr', -⟩ | ⟨off, v, as, hp, hr', h'⟩
      · simp only [perform, h', Host.Outcome.next.injEq] at h
        exact .inl ⟨e', h.symm, by rw [hr']; exact h1.trans hr⟩
      · simp only [perform, h'] at h
        exact .inr (.inr (.inl ⟨{ e with pending := as }, off, v, as, h2 ▸ hp, hr', h⟩))
    | engine =>
      rw [ht] at h
      simp only [perform, Host.Outcome.next.injEq] at h
      exact .inr (.inl ⟨e, h.symm, h1.trans hr⟩)
    | rst level =>
      rw [ht] at h
      simp only [perform, Host.Outcome.next.injEq] at h
      cases level
      · exact .inl ⟨_, h.symm, rfl⟩
      · exact .inr (.inr (.inr ⟨_, h.symm, rfl⟩))
  · rw [step, if_neg hW] at h
    cases h

end State

end Sys2Proof.Machine
end

