-- ==== Sys2Proof/Laws/PerInstr.lean ====
section
/-! SUPPORT. The family of per-command facts: what the word of each command holds (30_encoding.md R82, R85). -/

namespace Sys2Proof.Laws.EncodedFields

/-- The word of a command holds its OPCODE in bits 7:0 and 0 in every ignored bit, at every legal width. -/
def Statement (i : Instr) : Prop :=
  ∀ W : Nat, i.wellFormed W = true →
    opcodeOf (encode W i) = opcode i ∧ ∀ j, 8 ≤ j → (encode W i).getLsbD j = false

theorem of_width {W : Nat} (i : Instr) (h : legalWidth W = true) :
    opcodeOf (encode W i) = opcode i ∧ ∀ j, 8 ≤ j → (encode W i).getLsbD j = false := by
  refine ⟨opcodeOf_encode (minWidth_le_of_legalWidth h) i, ?_⟩
  intro j hj
  simp [encode, BitVec.getLsbD_of_ge _ _ hj]

theorem nop : Statement .nop := fun _ h => of_width _ h
theorem egcd : Statement .egcd := fun _ h => of_width _ h
theorem modinv : Statement .modinv := fun _ h => of_width _ h
theorem clrsts : Statement .clrsts := fun _ h => of_width _ h

end Sys2Proof.Laws.EncodedFields
end

