-- ==== Sys2Proof/Laws/Run.lean ====
section
/-! SUPPORT. Runs: a run of `k + 1` steps begins with one step. -/

namespace Sys2Proof.Machine

theorem core_run_succ (M : Host.Core) (k : Nat) {s t : M.State} (h : M.step s = .next t) : M.run (k + 1) s = M.run k t := by
  rw [Host.Core.run.eq_def]
  simp only [h]

@[simp] theorem runFrom_zero (s : State) : runFrom 0 s = .next s := rfl

theorem runFrom_succ (k : Nat) {s t : State} (h : step s = .next t) : runFrom (k + 1) s = runFrom k t :=
  core_run_succ Sys2Proof.core k h

/-- A command that is in progress and finishes after a step finishes before it. -/
theorem State.FinishesWith.of_step {s t : State} {P : State → Prop} (hs : s.blk.phase = .run) (h : step s = .next t)
    (ht : t.FinishesWith P) : s.FinishesWith P := by
  obtain ⟨k, hk, u, hu, hP⟩ := ht
  refine ⟨k + 1, ?_, u, (runFrom_succ _ h).trans hu, hP⟩
  intro j hj
  cases j with
  | zero => exact ⟨s, rfl, hs⟩
  | succ j => rw [runFrom_succ j h]; exact hk j (by omega)

/-- A step from RUN to a completed state is the last of its command. -/
theorem State.FinishesWith.of_last {s t : State} {P : State → Prop} (hs : s.blk.phase = .run) (h : step s = .next t)
    (ht : t.blk.phase = .idle) (hd : t.blk.DONE = true) (hP : P t) : s.FinishesWith P := by
  refine ⟨0, ?_, t, runFrom_succ 0 h, ht, hd, hP⟩
  intro j hj
  obtain rfl : j = 0 := by omega
  exact ⟨s, rfl, hs⟩

end Sys2Proof.Machine
end

