-- ==== Sys2Proof/Tests/Slice0.lean ====
section
/-! SUPPORT. The model's own tests, their expected values from the vectors and traces of 95_test_vectors.md (W = 16), and
one witness for the hypotheses of each statement. -/

namespace Sys2Proof.Machine.Tests

/-! ### Helpers -/

/-- A state at W = 16 with `rst` released. -/
def stateOf (b : Block 16) (pending : List (HostAction 16)) (turns : List Turn) : State :=
  ⟨16, b, { Env.quiet 16 with pending := pending, turns := turns }⟩

/-- A state at W = 16 with `rst` asserted. -/
def heldState (pending : List (HostAction 16)) (turns : List Turn) : State :=
  ⟨16, Block.reset 16, { Env.quiet 16 with rst := true, pending := pending, turns := turns }⟩

/-- A block in IDLE with the given operands. -/
def idleBlock (a m : Word 16) : Block 16 := { Block.reset 16 with A := a, B := m }

/-- A block in RUN with the given latched command and working registers. -/
def runBlock (op : Op) (a m : Word 16) (r0 r1 x0 x1 y0 y1 : Int) : Block 16 :=
  { Block.reset 16 with
    A := a, B := m, phase := .run, op := op
    sa := decide (sval a < 0), sb := decide (sval m < 0), mreg := m
    r0 := r0, r1 := r1, x0 := x0, x1 := x1, y0 := y0, y1 := y1 }

/-- The word at an offset after a transition. -/
def wordAfter (r : Result) (off : Offset) : Option Nat :=
  match r with
  | .next t => some (t.blk.readReg off).toNat
  | .fault _ => none
  | .refused _ => none

/-- EGCD(240, 46) after ITER 2 and after ITER 5 (95_test_vectors.md §4). -/
def egcdIter2 : Block 16 := runBlock .egcd 240 46 10 6 1 (-4) (-5) 21
def egcdIter5 : Block 16 := runBlock .egcd 240 46 2 0 (-9) 23 47 (-120)

/-- MODINV(−731, 751) after ITER 7 (95_test_vectors.md §4). -/
def modinvIter7 : Block 16 := runBlock .modinv 0xFD25 751 1 0 (-338) 751 329 (-731)

/-- MODINV(4, 10) after ITER 3, evaluated by hand from 40_euclid.md R101, R102; its gcd is 2 (95_test_vectors.md §3). -/
def modinvNoInverse : Block 16 := { runBlock .modinv 4 10 2 0 (-2) 5 1 (-2) with R := 4 }

/-! ### Decoding: words written out from 30_encoding.md R82, R85 -/

theorem test_decode_nop : decode (0b0000000000000000 : Word 16) = .instr .nop := by decide
theorem test_decode_egcd : decode (0b0000000000000001 : Word 16) = .instr .egcd := by decide
theorem test_decode_modinv : decode (0b0000000000000010 : Word 16) = .instr .modinv := by decide
theorem test_decode_clrsts : decode (0b0000000000000011 : Word 16) = .instr .clrsts := by decide
/-- V9: the bits above 7 are ignored. -/
theorem test_decode_ignores_high_bits : decode (0b1010101100000001 : Word 16) = .instr .egcd := by decide
/-- V10, V11: the first and the last reserved OPCODE. -/
theorem test_decode_reserved :
    decode (0b0000000000000100 : Word 16) = .reserved 0x04 ∧ decode (0b0000000011111111 : Word 16) = .reserved 0xFF := by
  decide

/-! ### Well-formedness: an ill-formed term for each check -/

theorem test_wf_refuses_a_narrow_width :
    Instr.nop.wellFormed 7 = false ∧ Instr.egcd.wellFormed 7 = false ∧
    Instr.modinv.wellFormed 7 = false ∧ Instr.clrsts.wellFormed 7 = false := by decide
theorem test_wf_refuses_values_without_a_word :
    (Literal.dec 65536).wellFormed 16 = false ∧ (Literal.dec (-32769)).wellFormed 16 = false ∧
    (Literal.hex 0x10000).wellFormed 16 = false := by decide
theorem test_wf_refuses_lines :
    (HostLine.write .A (.dec 65536)).wellFormed 16 = false ∧ (HostLine.cmd .nop).wellFormed 7 = false ∧
    (HostLine.egcd (.dec 1) (.hex 0x10000)).wellFormed 16 = false ∧
    (HostLine.modinv (.dec (-32769)) (.dec 1)).wellFormed 16 = false := by decide
theorem test_wf_accepts :
    Instr.nop.wellFormed 8 = true ∧ (Literal.dec (-32768)).wellFormed 16 = true ∧
    (Literal.hex 0xFFFF).wellFormed 16 = true := by decide

/-! ### Commands and engine steps -/

/-- V13: NOP in RUN leaves STATUS 0x0001. -/
theorem test_nop_in_run : wordAfter (exec .nop (stateOf egcdIter2 [] [])) 0x4 = some 0x0001 := by decide

/-- The START row of EGCD(240, 46) (95_test_vectors.md §4). -/
theorem test_egcd_start :
    (idleBlock 240 46).accept .egcd = runBlock .egcd 240 46 240 46 1 0 0 1 := by decide

/-- FINISH of EGCD(240, 46): G = 2, X = −9, Y = 47, STATUS 0x0002 (95_test_vectors.md §2). -/
theorem test_egcd_finish :
    egcdIter5.engineStep.G = 0x0002 ∧ egcdIter5.engineStep.X = 0xFFF7 ∧ egcdIter5.engineStep.Y = 0x002F ∧
    egcdIter5.engineStep.statusWord = 0x0002 := by decide

/-- ITER 3 of EGCD(240, 46): q = 1 (95_test_vectors.md §4). -/
theorem test_iter : egcdIter2.engineStep = runBlock .egcd 240 46 6 4 (-4) 5 21 (-26) := by decide

/-- FINISH of EGCD(−32768, −32768): G = 0x8000, X = 0, Y = 0xFFFF (95_test_vectors.md §2). -/
theorem test_finish_most_negative :
    let b := (runBlock .egcd 0x8000 0x8000 32768 0 0 1 1 (-1)).engineStep
    b.G = 0x8000 ∧ b.X = 0x0000 ∧ b.Y = 0xFFFF := by decide

/-- FINISH of MODINV(−731, 751): R = 338, STATUS 0x0002 (95_test_vectors.md §3). -/
theorem test_modinv_finish :
    modinvIter7.engineStep.R = 0x0152 ∧ modinvIter7.engineStep.statusWord = 0x0002 := by decide

/-- FINISH of MODINV(4, 10): R as it was, STATUS 0x0006 (95_test_vectors.md §3). -/
theorem test_modinv_no_inverse :
    modinvNoInverse.engineStep.R = 4 ∧ modinvNoInverse.engineStep.statusWord = 0x0006 := by decide

/-- V22: MODINV with B = 0 gives STATUS 0x000A. -/
theorem test_modinv_bad_modulus :
    wordAfter (exec .modinv (stateOf { idleBlock 7 0 with DONE := true } [] [])) 0x4 = some 0x000A := by decide

/-- V17: acceptance clears DONE and ERR and keeps OVR. -/
theorem test_acceptance_keeps_ovr :
    wordAfter (exec .modinv (stateOf { idleBlock 3 11 with DONE := true, OVR := true } [] [])) 0x4 = some 0x0021 := by
  decide

/-- V16: CLRSTS from STATUS 0x002A gives 0x0000. -/
theorem test_clrsts :
    wordAfter (exec .clrsts (stateOf { idleBlock 0 0 with DONE := true, OVR := true, ERR := .badModulus } [] [])) 0x4 =
      some 0x0000 := by decide

/-- V14: CLRSTS in RUN is dropped, STATUS 0x0021. -/
theorem test_clrsts_in_run : wordAfter (exec .clrsts (stateOf egcdIter2 [] [])) 0x4 = some 0x0021 := by decide

/-- V10 and V15: a reserved OPCODE in IDLE and in RUN. -/
theorem test_reserved :
    wordAfter (regWrite (stateOf (idleBlock 0 0) [] []) 0x2 (0x00FF : Word 16)) 0x4 = some 0x000E ∧
    wordAfter (regWrite (stateOf egcdIter2 [] []) 0x2 (0x0077 : Word 16)) 0x4 = some 0x0021 := by decide

/-- V6: a CTRL write of 0xFFFF reads back as 0x0001. -/
theorem test_ctrl : wordAfter (regWrite (stateOf (idleBlock 0 0) [] []) 0x3 (0xFFFF : Word 16)) 0x3 = some 0x0001 := by
  decide

/-- V2, V3 and V5: writes to STATUS, G and 0x9 are ignored. -/
theorem test_ignored_writes :
    regWrite (stateOf (idleBlock 1 2) [] []) 0x4 (0xFFFF : Word 16) = .next (stateOf (idleBlock 1 2) [] []) ∧
    regWrite (stateOf (idleBlock 1 2) [] []) 0x5 (0x1234 : Word 16) = .next (stateOf (idleBlock 1 2) [] []) ∧
    regWrite (stateOf (idleBlock 1 2) [] []) 0x9 (0x5555 : Word 16) = .next (stateOf (idleBlock 1 2) [] []) :=
  ⟨rfl, rfl, rfl⟩

/-- V18 and V19: irq follows DONE and IE. -/
theorem test_irq :
    ({ idleBlock 0 0 with DONE := true, IE := true } : Block 16).irq = true ∧
    ({ idleBlock 0 0 with DONE := true, IE := false } : Block 16).irq = false := by decide

/-- V20: reset in RUN. -/
theorem test_reset_in_run :
    wordAfter (step (stateOf egcdIter5 [] [.rst true])) 0x4 = some 0x0000 ∧
    wordAfter (step (stateOf egcdIter5 [] [.rst true])) 0x0 = some 0x0000 := by decide

/-- A table word placed by withFetchWord is the first command after reset: EGCD starts (STATUS 0x0001). -/
theorem test_fetch_word_runs_after_reset : wordAfter (step (State.reset.withFetchWord 8 0x01)) 0x4 = some 0x0001 := by
  decide

/-- The first lines of P1 and their encodings (95_test_vectors.md §6). -/
theorem test_host_program :
    hostProgram 16 [.write .A (.dec 3), .write .B (.dec 11), .cmd .modinv, .waitDone, .read .R] =
      [.write 0x0 0x0003, .write 0x1 0x000B, .write 0x2 0x0002, .waitDone, .read 0x8] := by decide

/-- `write A, -240` of P2 is the word 0xFF10 (95_test_vectors.md §6). -/
theorem test_negative_literal : (Literal.dec (-240)).word 16 = 0xFF10 := by decide

/-! ### Blocks that run on operands, for the witnesses -/

theorem egcdIter2_runs : egcdIter2.RunsOn 240 46 := by constructor <;> decide
theorem egcdIter5_runs : egcdIter5.RunsOn 240 46 := by constructor <;> decide
theorem modinvIter7_runs : modinvIter7.RunsOn (-731) 751 := by constructor <;> decide
theorem modinvNoInverse_runs : modinvNoInverse.RunsOn 4 10 := by constructor <;> decide

theorem resetResultsInRange : (Block.reset 16).ResultsInRange := by constructor <;> decide

/-! ### Witnesses: each statement's hypotheses are met by a concrete state -/

theorem witness_DecoderReadsOnlyTheOpcode :
    legalWidth 8 = true ∧ decode (0x03 : Word 8) = .instr .clrsts ∧ decode (0x04 : Word 8) = .reserved 0x04 ∧
    uval (0x0103 : Word 16) % 256 = uval (0x0003 : Word 16) % 256 := by decide
theorem witness_DecodeEncodeRoundTrip :
    Instr.clrsts.wellFormed 8 = true ∧ decode (0xFF02 : Word 16) = .instr .modinv := by decide
theorem witness_AssertingResetEndsTheCommand :
    let s := stateOf egcdIter5 [] [.rst true, .host]
    legalWidth s.W = true ∧ s.env.turns = .rst true :: [.host] ∧ s.blk.phase = .run := by decide
theorem witness_AssertedResetHoldsTheBlock :
    let s := heldState [.read 0xF] [.host]
    let u := heldState [.write 0x0 7] [.host]
    let v := heldState [] [.rst false]
    let w := heldState [.waitDone] []
    (∃ t, step v = .next t ∧ t.env.rst = false) ∧ w.env.rst = true ∧ w.env.turns = [] ∧
    legalWidth s.W = true ∧ s.env.rst = true ∧ s.env.turns = [.host] ∧ s.env.pending = [.read 0xF] ∧
    u.env.rst = true ∧ u.env.turns = [.host] ∧ u.env.pending = [.write 0x0 7] ∧
    v.env.rst = true ∧ v.env.turns = [.rst false] := ⟨⟨_, rfl, rfl⟩, by decide⟩
theorem witness_CommandsStraightAfterReset : legalWidth 8 = true := by decide
theorem witness_NopChangesNothing : uval (0xAB00 : Word 16) % 256 = 0x00 := by decide
theorem witness_ClrstsClearsTheStatus :
    (stateOf (idleBlock 0 0) [] []).blk.phase = .idle ∧ (stateOf egcdIter2 [] []).blk.phase = .run ∧
    uval (0xAB03 : Word 16) % 256 = 0x03 := by decide
theorem witness_EgcdAndModinvStartInIdle :
    (stateOf (idleBlock 0 1) [] []).blk.phase = .idle ∧ 1 ≤ sval (stateOf (idleBlock 0 1) [] []).blk.B := by decide
theorem witness_ModinvRefusesABadModulus :
    (stateOf (idleBlock 7 0) [] []).blk.phase = .idle ∧ sval (stateOf (idleBlock 7 0) [] []).blk.B ≤ 0 := by decide
theorem witness_ReservedOpcodeIsIllegal :
    (stateOf (idleBlock 7 0) [] []).blk.phase = .idle ∧ 0x04 ≤ uval (0x0004 : Word 16) % 256 ∧
    0x04 ≤ uval (0x00FF : Word 16) % 256 := by decide
theorem witness_CommandInRunIsDropped :
    (stateOf egcdIter2 [] []).blk.phase = .run ∧ decode (0x0003 : Word 16) ≠ .instr .nop ∧
    decode (0x0077 : Word 16) ≠ .instr .nop ∧ Instr.clrsts ≠ .nop := by decide
theorem witness_FinishWritesResultsAndStatus :
    (egcdIter5.phase = .run ∧ egcdIter5.r1 = 0 ∧ egcdIter5.op = .egcd) ∧
    (modinvNoInverse.phase = .run ∧ modinvNoInverse.r1 = 0 ∧ modinvNoInverse.op = .modinv ∧ modinvNoInverse.r0 ≠ 1) ∧
    (modinvIter7.phase = .run ∧ modinvIter7.r1 = 0 ∧ modinvIter7.op = .modinv ∧ modinvIter7.r0 = 1) := by decide
theorem witness_IterKeepsTheEuclidRelations :
    legalWidth 16 = true ∧ (Op.modinv = .modinv → 1 ≤ sval (idleBlock 0 1).B) ∧ egcdIter2.RunsOn 240 46 ∧
    egcdIter2.phase = .run ∧ egcdIter2.r1 ≠ 0 := ⟨by decide, by decide, egcdIter2_runs, by decide, by decide⟩
theorem witness_AtMostAbsBIterations :
    legalWidth 16 = true ∧ (Op.modinv = .modinv → 1 ≤ sval (idleBlock 0 1).B) ∧
    (Op.egcd = .modinv → 1 ≤ sval (idleBlock 7 0).B) ∧ sval (idleBlock 7 0).B = 0 := by decide
theorem witness_EgcdFinishesWithGcdAndBezout :
    legalWidth 16 = true ∧ egcdIter5.RunsOn 240 46 ∧ egcdIter5.op = .egcd ∧ egcdIter5.r1 = 0 :=
  ⟨by decide, egcdIter5_runs, by decide, by decide⟩
theorem witness_ModinvFinishesWithTheUniqueInverse :
    legalWidth 16 = true ∧ modinvIter7.RunsOn (-731) 751 ∧ modinvIter7.op = .modinv ∧ modinvIter7.r1 = 0 ∧
    modinvIter7.engineStep.ERR = .none := ⟨by decide, modinvIter7_runs, by decide, by decide, by decide⟩
theorem witness_ModinvReportsNoInverseExactly :
    modinvNoInverse.RunsOn 4 10 ∧ modinvNoInverse.op = .modinv ∧ modinvNoInverse.r1 = 0 ∧
    modinvNoInverse.engineStep.ERR = .noInverse := ⟨modinvNoInverse_runs, by decide, by decide, by decide⟩
theorem witness_OutcomeDependsOnlyOnTheOperands :
    let b := idleBlock 3 11
    let c := { idleBlock 3 11 with G := 7, OVR := true, r0 := 5 }
    (Op.modinv = .modinv → 1 ≤ sval b.B) ∧ b.A = c.A ∧ b.B = c.B ∧ b ≠ c := by decide
theorem witness_RegisterMap :
    decode (0x0001 : Word 16) = .instr .egcd ∧ decode (0x0004 : Word 16) = .reserved 0x04 ∧
    (0x9 : Offset) ≤ 0x9 ∧ (0x9 : Offset) ≤ 0xF ∧ (0x4 : Offset) ≤ 0x4 ∧ (0x4 : Offset) ≤ 0xF := by decide
theorem witness_ReservedAndReadOnlyOffsetsIgnoreWrites :
    (0x4 : Offset) ≤ 0x4 ∧ (0x4 : Offset) ≤ 0xF ∧ (0x9 : Offset) ≤ 0x9 ∧ (0x9 : Offset) ≤ 0xF := by decide
theorem witness_CtrlWriteSetsTheInterruptEnable : legalWidth (stateOf egcdIter2 [] []).W = true := by decide
theorem witness_StatusWordLayout : legalWidth 8 = true := by decide
theorem witness_RegReadReturnsTheWordAndChangesNothing :
    let s := stateOf egcdIter2 [.read 0x5] [.host]
    legalWidth s.W = true ∧ s.env.rst = false ∧ s.env.turns = .host :: [] ∧ s.env.pending = .read 0x5 :: [] := by decide
theorem witness_StepRunsTheDecodedCommand :
    let s := stateOf (idleBlock 3 11) [.write cmdOffset 0x0002] [.host]
    let u := stateOf (idleBlock 3 11) [.write cmdOffset 0x0004] []
    legalWidth s.W = true ∧ s.env.rst = false ∧ s.env.pending = .write cmdOffset 0x0002 :: [] ∧
    s.env.turns = .host :: [] ∧ decode (0x0002 : Word 16) = .instr .modinv ∧
    u.env.rst = false ∧ u.env.pending = .write cmdOffset 0x0004 :: [] ∧ u.env.turns = [] ∧ u.blk.phase = .idle ∧
    decode (0x0004 : Word 16) = .reserved 0x04 := by decide
theorem witness_FetchWordIsRunNext :
    legalWidth State.reset.W = true ∧ decodeTableWord 8 0x03 = some .clrsts := by decide
theorem witness_StepTakesTheSettledTurn :
    let s := stateOf egcdIter2 [] [.engine]
    let u := stateOf egcdIter2 [] [.host]
    let v := stateOf egcdIter2 [.write 0x0 7] [.host]
    let w := stateOf egcdIter2 [] [.rst false]
    legalWidth s.W = true ∧ s.env.rst = false ∧ s.env.turns = .engine :: [] ∧
    u.env.turns = .host :: [] ∧ u.env.pending = [] ∧
    v.env.turns = .host :: [] ∧ v.env.pending = .write 0x0 7 :: [] ∧ w.env.turns = .rst false :: [] ∧
    (stateOf (idleBlock 3 11) [.write 0x0 7] [.engine]).env.turns = .engine :: [] ∧
    (stateOf (idleBlock 3 11) [.write 0x0 7] [.engine]).blk.phase = .idle := by decide
theorem witness_UnsettledTurnsAreAFairBurst :
    let s := stateOf egcdIter2 [] []
    let u := stateOf egcdIter2 [.read 0x4] []
    legalWidth s.W = true ∧ s.env.rst = false ∧ s.env.turns = [] ∧ s.blk.phase = .run ∧ s.env.pending = [] ∧
    u.env.turns = [] ∧ u.blk.phase = .run ∧ u.env.pending ≠ [] ∧
    (stateOf (idleBlock 3 11) [.read 0x4] []).env.turns = [] ∧
    (stateOf (idleBlock 3 11) [.read 0x4] []).blk.phase = .idle := by decide
/-- A pattern that just fits W = 16. -/
theorem witness_HostAssemblyEncodings : (HostLine.write .CTRL (.hex 0xFFFF)).wellFormed 16 = true := by decide
theorem witness_NarrowWidthIsRefused : (State.resetAt 7).W < 8 := by decide
theorem witness_LegalStepsAlwaysComplete : 8 ≤ (State.resetAt 8).W := by decide
theorem witness_WaitDonePollsUntilIdle :
    let s := stateOf egcdIter2 [.waitDone] [.host]
    let u := stateOf (idleBlock 3 11) [.waitDone] [.host]
    legalWidth s.W = true ∧ s.env.rst = false ∧ s.env.turns = .host :: [] ∧ s.env.pending = .waitDone :: [] ∧
    s.blk.phase = .run ∧ u.env.turns = .host :: [] ∧ u.env.pending = .waitDone :: [] ∧ u.blk.phase = .idle := by decide
theorem witness_BothOrdersOfAWriteAndFinish :
    let s := stateOf egcdIter5 [.write cmdOffset 0x0001] []
    legalWidth s.W = true ∧ s.env.rst = false ∧ s.blk.phase = .run ∧ s.blk.r1 = 0 ∧
    s.env.pending = .write cmdOffset 0x0001 :: [] ∧ decode (0x0001 : Word 16) = .instr .egcd := by decide

/-- An engine turn that finishes EGCD(240, 46) and changes G. -/
theorem witness_ResultsChangeOnlyAtFinish :
    ∃ t, step (stateOf egcdIter5 [] [.engine]) = .next t ∧ t.env.rst = false ∧
      uval t.blk.G ≠ uval (stateOf egcdIter5 [] [.engine]).blk.G := ⟨_, rfl, rfl, by decide⟩
/-- OVR set by a dropped command in RUN and cleared by CLRSTS in IDLE, and an offset other than STATUS. -/
theorem witness_CommandsWriteOnlyStatus :
    (∃ t, exec .egcd (stateOf egcdIter2 [] []) = .next t ∧ egcdIter2.OVR = false ∧ egcdIter2.phase = .run ∧
      t.blk.OVR = true) ∧
    (∃ t, exec .clrsts (stateOf { idleBlock 3 11 with OVR := true } [] []) = .next t ∧ t.blk.OVR = false) ∧
    RegName.G.offset ≠ statusOffset := ⟨⟨_, rfl, by decide⟩, ⟨_, rfl, by decide⟩, by decide⟩
/-- A write to A in RUN that changes it. -/
theorem witness_OnlyTheHostWritesItsRegisters :
    ∃ t, step (stateOf egcdIter2 [.write 0x0 7] [.host]) = .next t ∧ t.env.rst = false ∧ uval t.blk.A = 7 :=
  ⟨_, rfl, rfl, by decide⟩
theorem witness_PhaseChangesOnlyByStartAndFinish :
    (∃ t, step (stateOf (idleBlock 3 11) [.write 0x2 0x0002] [.host]) = .next t ∧ t.env.rst = false ∧
      t.blk.phase = .run) ∧
    (∃ t, step (stateOf egcdIter5 [] [.engine]) = .next t ∧ t.env.rst = false ∧ t.blk.phase = .idle) :=
  ⟨⟨_, rfl, rfl, by decide⟩, ⟨_, rfl, rfl, by decide⟩⟩
theorem witness_DoneChangesOnlyAsStated :
    (∃ t, step (stateOf egcdIter5 [] [.engine]) = .next t ∧ t.env.rst = false ∧ t.blk.DONE = true) ∧
    (∃ t, step (stateOf { idleBlock 3 11 with DONE := true } [.write 0x2 0x0003] [.host]) = .next t ∧
      t.env.rst = false ∧ t.blk.DONE = false) := ⟨⟨_, rfl, rfl, by decide⟩, ⟨_, rfl, rfl, by decide⟩⟩
theorem witness_OvrChangesOnlyAsStated :
    (∃ t, step (stateOf egcdIter2 [.write 0x2 0x0003] [.host]) = .next t ∧ t.env.rst = false ∧ t.blk.OVR = true) ∧
    (∃ t, step (stateOf { idleBlock 3 11 with OVR := true } [.write 0x2 0x0003] [.host]) = .next t ∧
      t.env.rst = false ∧ t.blk.OVR = false) := ⟨⟨_, rfl, rfl, by decide⟩, ⟨_, rfl, rfl, by decide⟩⟩
/-- ERR changed by each of the five: acceptance, CLRSTS, FINISH, a bad modulus, a reserved OPCODE. -/
theorem witness_ErrChangesOnlyAsStated :
    let e : Block 16 := { idleBlock 3 11 with DONE := true, ERR := .noInverse }
    (∃ t, step (stateOf e [.write 0x2 0x0001] [.host]) = .next t ∧ t.env.rst = false ∧ t.blk.ERR ≠ e.ERR) ∧
    (∃ t, step (stateOf e [.write 0x2 0x0003] [.host]) = .next t ∧ t.env.rst = false ∧ t.blk.ERR ≠ e.ERR) ∧
    (∃ t, step (stateOf modinvNoInverse [] [.engine]) = .next t ∧ t.env.rst = false ∧
      t.blk.ERR ≠ modinvNoInverse.ERR) ∧
    (∃ t, step (stateOf (idleBlock 3 0) [.write 0x2 0x0002] [.host]) = .next t ∧ t.env.rst = false ∧
      t.blk.ERR ≠ (idleBlock 3 0).ERR) ∧
    (∃ t, step (stateOf e [.write 0x2 0x0004] [.host]) = .next t ∧ t.env.rst = false ∧ t.blk.ERR ≠ e.ERR) :=
  ⟨⟨_, rfl, rfl, by decide⟩, ⟨_, rfl, rfl, by decide⟩, ⟨_, rfl, rfl, by decide⟩, ⟨_, rfl, rfl, by decide⟩,
    ⟨_, rfl, rfl, by decide⟩⟩
theorem witness_ResetMeetsTheInvariant : legalWidth 8 = true := by decide
/-- A state in RUN that meets the invariant, and its next. -/
theorem witness_StepKeepsTheInvariant :
    (stateOf egcdIter2 [] [.engine]).Inv ∧ ∃ t, step (stateOf egcdIter2 [] [.engine]) = .next t := by
  refine ⟨⟨by decide, ?_, fun _ => ⟨240, 46, egcdIter2_runs⟩, fun h => absurd h (by decide)⟩, _, rfl⟩
  constructor <;> decide
theorem witness_RunningCommandReachesFinish :
    legalWidth (stateOf egcdIter2 [.write 0x2 0x0001] []).W = true ∧ (stateOf egcdIter2 [.write 0x2 0x0001] []).NoReset ∧
    (stateOf egcdIter2 [.write 0x2 0x0001] []).blk.phase = .run := ⟨by decide, ⟨by decide, by decide⟩, by decide⟩
theorem witness_EgcdRefinesExtendedGcd :
    legalWidth (stateOf (idleBlock 240 46) [] []).W = true ∧ (stateOf (idleBlock 240 46) [] []).NoReset ∧
    (stateOf (idleBlock 240 46) [] []).blk.phase = .idle := ⟨by decide, ⟨by decide, by decide⟩, by decide⟩
theorem witness_ModinvRefinesModInverse :
    legalWidth (stateOf (idleBlock 3 11) [] []).W = true ∧ (stateOf (idleBlock 3 11) [] []).NoReset ∧
    (stateOf (idleBlock 3 11) [] []).blk.phase = .idle ∧ 1 ≤ sval (stateOf (idleBlock 3 11) [] []).blk.B ∧
    modInverse 3 11 = some 4 ∧ modInverse 4 10 = none :=
  ⟨by decide, ⟨by decide, by decide⟩, by decide, by decide, by decide, by decide⟩
theorem witness_ExtendedGcdCornerCases :
    (-7 : Int) ≠ 0 ∧ absVal (-5) = absVal 5 ∧ (5 : Int) ≠ 0 ∧ absVal 46 < absVal 240 := by decide
theorem witness_ModInverseCornerCases :
    (1 : Int) < 751 ∧ fmod 1502 751 = 0 ∧ fmod 0 2 = 0 ∧ (1 : Int) ≤ 1 := by decide

end Sys2Proof.Machine.Tests
end

section
/-! PROOFS. The STATUS word as a number, and what a host access to STATUS does (10_state.md R31; 20_memory.md R52, R55). -/

namespace Sys2Proof.Machine

theorem Err.code_le_three (e : Err) : e.code ≤ 3 := by cases e <;> decide

section Block
variable {W : Nat} (b : Block W)

@[simp] theorem Block.readReg_statusOffset : b.readReg statusOffset = b.statusWord := rfl

theorem Block.busy_toNat : b.busy.toNat = if b.phase = .run then 1 else 0 := by
  cases h : b.phase <;> simp [Block.busy, h]

/-- OVR, ERR, DONE and BUSY fill six bits: the bits above are reserved (10_state.md R31). -/
theorem Block.statusFields_lt :
    b.OVR.toNat * 0x20 + b.ERR.code * 0x04 + b.DONE.toNat * 0x02 + b.busy.toNat < 2 ^ 6 := by
  have hOVR := b.OVR.toNat_le
  have hERR := b.ERR.code_le_three
  have hDONE := b.DONE.toNat_le
  have hBUSY := b.busy.toNat_le
  omega

/-- At a legal width the STATUS word loses no field. -/
theorem Block.uval_statusWord (hW : legalWidth W = true) :
    uval b.statusWord = b.OVR.toNat * 0x20 + b.ERR.code * 0x04 + b.DONE.toNat * 0x02 + b.busy.toNat := by
  have hpow : 2 ^ 6 ≤ 2 ^ W := Nat.pow_le_pow_right (by decide) (by have := legalWidth_iff.mp hW; omega)
  rw [uval, Block.statusWord, BitVec.toNat_ofNat, Nat.mod_eq_of_lt (b.statusFields_lt.trans_le hpow)]

end Block

/-- STATUS is read-only (20_memory.md R55). -/
@[simp] theorem regWrite_statusOffset (s : State) (v : Word s.W) : regWrite s statusOffset v = .next s := rfl

/-- A one-bit field contributes its weight when the flag is set. -/
theorem toNat_mul_eq_ite (c : Bool) (n : Nat) : c.toNat * n = if c then n else 0 := by cases c <;> simp

/-- Settles O26: no field overflows six bits, so the word is the sum of its fields; STATUS is read-only, and a read only
records the word for the host. -/
theorem statusWordLayout : Obligations.StatusWordLayout := by
  unfold Obligations.StatusWordLayout
  refine ⟨fun W b hW => ?_, regWrite_statusOffset, fun s => s.recordRead_blk statusOffset⟩
  rw [b.readReg_statusOffset, b.uval_statusWord hW, toNat_mul_eq_ite, toNat_mul_eq_ite, b.busy_toNat]
  cases b.ERR <;> rfl

end Sys2Proof.Machine
end

section
/-! PROOFS. The register map: what a read of each offset returns and what a write to it does (20_memory.md R51, R54,
R55). -/

namespace Sys2Proof.Machine

/-- The map names nothing from 0x9 up (20_memory.md R54). -/
theorem Reg.ofOffset_eq_reserved {off : Offset} : Reg.ofOffset off = .reserved ↔ 0x9 ≤ off := by
  revert off; decide

section Block
variable {W : Nat} (b : Block W)

@[simp] theorem Block.readReg_cmdOffset : b.readReg cmdOffset = 0 := rfl
@[simp] theorem Block.readReg_ctrlOffset : b.readReg RegName.CTRL.offset = b.ctrlWord := rfl

theorem Block.readReg_reserved {off : Offset} (h : 0x9 ≤ off) : b.readReg off = 0 := by
  rw [Block.readReg, Reg.ofOffset_eq_reserved.mpr h]

/-- CTRL reads 0 above IE, at every width (10_state.md R30). -/
theorem Block.uval_ctrlWord_lt : uval b.ctrlWord < 2 ^ 1 := by
  rw [uval, Block.ctrlWord, BitVec.toNat_ofNat]
  exact (Nat.mod_le _ _).trans_lt b.IE.toNat_lt

/-- STATUS reads 0 above OVR, at every width (10_state.md R31). -/
theorem Block.uval_statusWord_lt : uval b.statusWord < 2 ^ 6 := by
  rw [uval, Block.statusWord, BitVec.toNat_ofNat]
  exact (Nat.mod_le _ _).trans_lt b.statusFields_lt

end Block

section State
variable (s : State)

/-- A write to CMD issues the command of its word (30_encoding.md R81). -/
@[simp] theorem regWrite_cmdOffset (v : Word s.W) : regWrite s cmdOffset v = issue s v := rfl

/-- From STATUS up the map is read-only or reserved: of the five things a write can do, four need a lower offset. -/
theorem regWrite_readOnly {off : Offset} (h : 0x4 ≤ off) (v : Word s.W) : regWrite s off v = .next s := by
  rcases regWrite_cases s off v with ⟨rfl, -⟩ | ⟨rfl, -⟩ | ⟨rfl, -⟩ | ⟨rfl, -⟩ | ⟨-, hw⟩
  case inr.inr.inr.inr => exact hw
  all_goals exact absurd h (by decide)

end State

/-- Settles O23: each named offset selects its own row of the map; a CMD write is the issue of the decoded word. -/
theorem registerMap : Obligations.RegisterMap := by
  unfold Obligations.RegisterMap
  constructor
  · intro W b
    exact ⟨rfl, rfl, rfl, rfl, rfl, rfl, rfl, rfl, rfl, fun _ => b.readReg_reserved⟩
  · intro s v
    have hinstr : ∀ i, decode v = .instr i → regWrite s 0x2 v = exec i s :=
      fun _ h => (regWrite_cmdOffset s v).trans (issue_instr s h)
    have hreserved : ∀ c, decode v = .reserved c → regWrite s 0x2 v = execReserved s :=
      fun _ h => (regWrite_cmdOffset s v).trans (issue_reserved s h)
    exact ⟨rfl, rfl, hinstr, hreserved, rfl, fun _ h => regWrite_readOnly s h v⟩

/-- Settles O24: a write from STATUS up does nothing, and CTRL and STATUS carry no more bits than their fields fill. -/
theorem reservedAndReadOnlyOffsetsIgnoreWrites : Obligations.ReservedAndReadOnlyOffsetsIgnoreWrites := by
  unfold Obligations.ReservedAndReadOnlyOffsetsIgnoreWrites
  refine ⟨fun s _ v h => regWrite_readOnly s h v, fun _ b _ => b.readReg_reserved, fun _ b => b.readReg_cmdOffset, ?_⟩
  intro W b
  rw [b.readReg_ctrlOffset, b.readReg_statusOffset]
  exact ⟨b.uval_ctrlWord_lt, b.uval_statusWord_lt⟩

end Sys2Proof.Machine
end

section
/-! PROOFS. What a command word decodes to, read from the number in its low byte (30_encoding.md R82, R85, R89), and
what a step makes of a width that has no room for that byte (30_encoding.md R84). -/

namespace Sys2Proof.Machine

section Word
variable {W : Nat} (v : Word W)

theorem opcodeOf_eq_iff_uval (c : Opcode) : opcodeOf v = c ↔ uval v % 256 = uval c := by
  rw [← BitVec.toNat_inj, opcodeOf_toNat, uval, uval]

/-- The number in the low byte alone decides whether a word carries a given command. -/
theorem decode_eq_instr_iff_uval (i : Instr) : decode v = .instr i ↔ uval v % 256 = uval (opcode i) := by
  rw [decode_eq_instr, opcodeOf_eq_iff_uval]

/-- A reserved OPCODE is kept by its value, and the assigned ones end at 0x03. -/
theorem decode_eq_reserved_iff_uval (c : Opcode) :
    decode v = .reserved c ↔ uval v % 256 = uval c ∧ 0x04 ≤ uval c := by
  rw [decode_eq_reserved, opcodeOf_eq_iff_uval]
  exact Iff.rfl

theorem exists_decode_eq_reserved_iff : (∃ c, decode v = .reserved c) ↔ 0x04 ≤ uval v % 256 := by
  constructor
  · rintro ⟨c, hc⟩
    obtain ⟨hval, hle⟩ := (decode_eq_reserved_iff_uval v c).mp hc
    exact hval ▸ hle
  · intro hle
    have hval : uval v % 256 = uval (opcodeOf v) := (opcodeOf_eq_iff_uval v _).mp rfl
    exact ⟨opcodeOf v, (decode_eq_reserved_iff_uval v _).mpr ⟨hval, hval ▸ hle⟩⟩

theorem decode_eq_of_uval_mod_eq {w : Word W} (h : uval w % 256 = uval v % 256) : decode w = decode v :=
  decode_congr ((opcodeOf_eq_iff_uval w _).mpr (h.trans (opcodeOf_toNat v).symm))

end Word

/-- Settles O2: each command is the one value of the low byte that the opcode map gives it, every other value is
reserved, and words with the same low byte have the same OPCODE. -/
theorem decoderReadsOnlyTheOpcode : Obligations.DecoderReadsOnlyTheOpcode := by
  unfold Obligations.DecoderReadsOnlyTheOpcode
  intro W v _
  have hkept : ∀ c, decode v = .reserved c → uval c = uval v % 256 :=
    fun c hc => ((decode_eq_reserved_iff_uval v c).mp hc).1.symm
  exact ⟨decode_eq_instr_iff_uval v .nop, decode_eq_instr_iff_uval v .egcd, decode_eq_instr_iff_uval v .modinv,
    decode_eq_instr_iff_uval v .clrsts, exists_decode_eq_reserved_iff v, hkept, fun _ => decode_eq_of_uval_mod_eq v⟩

/-- A step takes no turn at a width that is no configuration. -/
theorem step_illegalWidth (s : State) (h : ¬ legalWidth s.W = true) : step s = .refused (.illegalWidth s.W) :=
  if_neg h

/-- Settles O32: a width below 8 is not legal, and `step` refuses it before any turn. -/
theorem narrowWidthIsRefused : Obligations.NarrowWidthIsRefused := by
  unfold Obligations.NarrowWidthIsRefused
  intro s hW
  exact step_illegalWidth s (mt legalWidth_iff.mp (Nat.not_le.mpr hW))

end Sys2Proof.Machine
end

section
/-! PROOFS. Acceptance of EGCD and MODINV in IDLE: the start, and the refusal of a modulus that is not positive
(40_euclid.md R100, R101, R110). -/

namespace Sys2Proof.Machine

/-- A modulus that is not positive is refused with nothing started (40_euclid.md R110). -/
theorem Block.accept_badModulus {W : Nat} (b : Block W) (h : sval b.B ≤ 0) :
    b.accept .modinv = b.completeError .badModulus := if_pos ⟨rfl, h⟩

theorem exec_egcd_idle (s : State) (h : s.blk.phase = .idle) :
    exec .egcd s = .next (s.withBlk (s.blk.accept .egcd)) :=
  congrArg s.goto (s.blk.unlessBusy_idle _ h)

theorem exec_modinv_idle (s : State) (h : s.blk.phase = .idle) :
    exec .modinv s = .next (s.withBlk (s.blk.accept .modinv)) :=
  congrArg s.goto (s.blk.unlessBusy_idle _ h)

/-- Settles O10: in IDLE both commands are their acceptance, which starts unless a MODINV has a bad modulus. -/
theorem egcdAndModinvStartInIdle : Obligations.EgcdAndModinvStartInIdle := by
  unfold Obligations.EgcdAndModinvStartInIdle
  constructor
  · intro s hidle
    rw [exec_egcd_idle s hidle, s.blk.accept_start .egcd nofun]
    rfl
  · intro s hidle hm
    rw [exec_modinv_idle s hidle, s.blk.accept_start .modinv fun _ => hm]
    rfl

/-- Settles O11: acceptance completes with BAD_MODULUS, and the phase it completes to is the one it was in. -/
theorem modinvRefusesABadModulus : Obligations.ModinvRefusesABadModulus := by
  unfold Obligations.ModinvRefusesABadModulus
  intro s hidle hm
  rw [exec_modinv_idle s hidle, s.blk.accept_badModulus hm, Block.completeError, Block.complete, ← hidle]

end Sys2Proof.Machine
end

section
/-! PROOFS. FINISH, one equation per outcome of the command (40_euclid.md R103, R111, R112). -/

namespace Sys2Proof.Machine

section Block
variable {W : Nat} (b : Block W)

theorem Block.finish_of_egcd (hop : b.op = .egcd) : b.finish =
    ({ b with G := bitsW W b.r0, X := bitsW W b.coeffA, Y := bitsW W b.coeffB } : Block W).complete .none :=
  b.finish_egcd hop

theorem Block.finish_of_inverse (hop : b.op = .modinv) (hg : b.r0 = 1) : b.finish =
    ({ b with R := bitsW W (fmod b.coeffA (sval b.mreg)) } : Block W).complete .none :=
  (b.finish_modinv hop).trans (if_pos hg)

theorem Block.finish_of_noInverse (hop : b.op = .modinv) (hg : b.r0 ≠ 1) : b.finish = b.complete .noInverse :=
  (b.finish_modinv hop).trans (if_neg hg)

end Block

/-- Settles O15: with r1 = 0 the engine's step is FINISH, in each of its three outcomes. -/
theorem finishWritesResultsAndStatus : Obligations.FinishWritesResultsAndStatus := by
  unfold Obligations.FinishWritesResultsAndStatus
  intro W b hrun hr1
  rw [b.engineStep_finish hrun hr1]
  exact ⟨b.finish_of_egcd, b.finish_of_noInverse, b.finish_of_inverse⟩

end Sys2Proof.Machine
end

section
/-! PROOFS. The Euclid relations: START establishes `RunsOn` and ITER keeps it, with every product in IW bits
(40_euclid.md R101, R102; 00_scope.md R6).

The coefficients of one operand alternate in sign, so a division step adds their sizes and never cancels. The cross sum
therefore keeps its value, the size of the other operand, and bounds each coefficient. -/

namespace Sys2Proof.Machine

theorem fitsIW_iff_absVal_le {W : Nat} {n : Int} : FitsIW W n ↔ absVal n ≤ 2 ^ (W - 1) := by
  rw [absVal_eq_abs, abs_le]

theorem absVal_one_le_two_pow (n : Nat) : absVal 1 ≤ 2 ^ n := one_le_pow₀ one_le_two

theorem two_pow_of_legalWidth {W : Nat} (hW : legalWidth W = true) : (2 : Int) ^ W = 2 * 2 ^ (W - 1) :=
  two_pow_pred (by have := legalWidth_iff.mp hW; omega)

theorem two_pow_sub_one_of_legalWidth {W : Nat} (hW : legalWidth W = true) : (2 : Int) ^ (W - 1) = 2 * 2 ^ (W - 2) :=
  two_pow_pred (by have := legalWidth_iff.mp hW; omega)

theorem fitsIW_sval {W : Nat} (v : Word W) : FitsIW W (sval v) := ⟨(sval_range v).1, (sval_range v).2.le⟩

theorem FitsIW.of_nonneg_of_le {W : Nat} {n k : Int} (hk : FitsIW W k) (h0 : 0 ≤ n) (hn : n ≤ k) : FitsIW W n :=
  ⟨(neg_nonpos.mpr (by positivity)).trans h0, hn.trans hk.2⟩

theorem absVal_absVal (n : Int) : absVal (absVal n) = absVal n := by simp [absVal]

/-! ### One pair of coefficients under a division step -/

section Coefficients
variable {q c0 c1 r0 r1 n : Int}

/-- The step adds the sizes of coefficients of opposite sign. -/
theorem absVal_coeff_step (halt : c0 * c1 ≤ 0) (hq : 0 ≤ q) :
    absVal (c0 - q * c1) = absVal c0 + q * absVal c1 := by
  have hsame : 0 ≤ c0 * -(q * c1) := by linarith [mul_nonneg hq (neg_nonneg.mpr halt)]
  rw [absVal_eq_abs, absVal_eq_abs, absVal_eq_abs, sub_eq_add_neg]
  calc |c0 + -(q * c1)| = |c0| + |-(q * c1)| := (abs_add_eq_add_abs_iff _ _).mpr (mul_nonneg_iff.mp hsame)
    _ = |c0| + q * |c1| := by rw [abs_neg, abs_mul, abs_of_nonneg hq]

theorem coeff_step_alternates (halt : c0 * c1 ≤ 0) (hq : 0 ≤ q) : c1 * (c0 - q * c1) ≤ 0 := by
  have hsq : 0 ≤ q * (c1 * c1) := mul_nonneg hq (mul_self_nonneg c1)
  linarith

theorem coeff_step_crossSum (halt : c0 * c1 ≤ 0) (hq : 0 ≤ q) :
    absVal (c0 - q * c1) * r1 + absVal c1 * (r0 - q * r1) = absVal c1 * r0 + absVal c0 * r1 := by
  rw [absVal_coeff_step halt hq]; ring

theorem absVal_mul_le_coeff_step (halt : c0 * c1 ≤ 0) (hq : 0 ≤ q) : absVal (q * c1) ≤ absVal (c0 - q * c1) := by
  rw [absVal_coeff_step halt hq, absVal_eq_abs (q * c1), abs_mul, abs_of_nonneg hq, ← absVal_eq_abs]
  linarith [absVal_nonneg c0]

/-- A cross sum of non-negative remainders bounds the coefficient whose remainder is at least `k`. -/
theorem mul_absVal_le_of_crossSum {k : Int} (hcross : absVal c1 * r0 + absVal c0 * r1 = n) (hr0 : k ≤ r0)
    (hr1 : 0 ≤ r1) : k * absVal c1 ≤ n := by
  have hold : 0 ≤ absVal c0 * r1 := mul_nonneg (absVal_nonneg c0) hr1
  have hnew : absVal c1 * k ≤ absVal c1 * r0 := mul_le_mul_of_nonneg_left hr0 (absVal_nonneg c1)
  linarith

end Coefficients

/-! ### START and ITER -/

/-- START sets up the identity: each remainder is its operand, with coefficients 1 and 0. -/
theorem Block.accept_runsOn {W : Nat} (b : Block W) (op : Op) (hm : op = .modinv → 1 ≤ sval b.B) :
    (b.accept op).RunsOn (sval b.A) (sval b.B) := by
  rw [b.accept_start op hm]
  have hfits0 : FitsIW W 0 := fitsIW_iff_absVal_le.mpr (by simp [absVal])
  have hfits1 : FitsIW W 1 := fitsIW_iff_absVal_le.mpr (absVal_one_le_two_pow _)
  have hfits (v : Word W) : FitsIW W (absVal (sval v)) := by
    rw [fitsIW_iff_absVal_le, absVal_absVal]
    exact fitsIW_iff_absVal_le.mp (fitsIW_sval v)
  exact {
    phase := rfl, done := rfl, err := rfl
    a_lo := (sval_range b.A).1, a_hi := (sval_range b.A).2
    mreg := rfl, sa := rfl, sb := rfl
    modulus := hm
    r0_nonneg := absVal_nonneg _, r1_nonneg := absVal_nonneg _
    bezout0 := by simp
    bezout1 := by simp
    gcd := rfl
    altX := by simp
    altY := by simp
    crossX := by simp [absVal]
    crossY := by simp [absVal]
    fits_r0 := hfits b.A, fits_r1 := hfits b.B
    fits_x0 := hfits1, fits_x1 := hfits0, fits_y0 := hfits0, fits_y1 := hfits1
    small := .inl ⟨rfl, rfl, rfl, rfl⟩ }

section RunsOn
variable {W : Nat} {b : Block W} {a m : Int}

theorem Block.RunsOn.absVal_a_le (h : b.RunsOn a m) : absVal a ≤ 2 ^ (W - 1) :=
  fitsIW_iff_absVal_le.mp ⟨h.a_lo, h.a_hi.le⟩

theorem Block.RunsOn.absVal_m_le (h : b.RunsOn a m) : absVal m ≤ 2 ^ (W - 1) :=
  h.mreg ▸ fitsIW_iff_absVal_le.mp (fitsIW_sval b.mreg)

theorem Block.RunsOn.quotient_nonneg (h : b.RunsOn a m) : 0 ≤ b.r0 / b.r1 :=
  Int.ediv_nonneg h.r0_nonneg h.r1_nonneg

theorem Block.RunsOn.remainder_lt (h : b.RunsOn a m) (hr1 : b.r1 ≠ 0) : b.iter.r1 < b.r1 := by
  have hlt := (iter_remainder b.r0 b.r1 hr1).2
  rwa [absVal_eq_abs, abs_of_nonneg h.r1_nonneg] at hlt

/-- Once the remainders fall, `r0` is at least 2 when ITER is enabled, so the coefficient that ITER moves down is at
most half of an operand; before the first ITER it is 0 or 1. -/
theorem Block.RunsOn.coeffs_small (h : b.RunsOn a m) (hW : legalWidth W = true) (hr1 : b.r1 ≠ 0) :
    absVal b.x1 ≤ 2 ^ (W - 2) ∧ absVal b.y1 ≤ 2 ^ (W - 2) := by
  have hhalf := two_pow_sub_one_of_legalWidth hW
  rcases h.small with ⟨-, hx1, -, hy1⟩ | ⟨hlt, -, -⟩
  · rw [hx1, hy1]
    exact ⟨by simp [absVal], absVal_one_le_two_pow _⟩
  · have hr0 : 2 ≤ b.r0 := by have := h.r1_nonneg; omega
    have hx := mul_absVal_le_of_crossSum h.crossX hr0 h.r1_nonneg
    have hy := mul_absVal_le_of_crossSum h.crossY hr0 h.r1_nonneg
    have ha := h.absVal_a_le
    have hm := h.absVal_m_le
    exact ⟨by linarith, by linarith⟩

/-- ITER keeps every relation of the working registers (40_euclid.md R102). -/
theorem Block.RunsOn.iter (h : b.RunsOn a m) (hW : legalWidth W = true) (hr1 : b.r1 ≠ 0) : b.iter.RunsOn a m := by
  have hq := h.quotient_nonneg
  have hpos : 1 ≤ b.r1 := by have := h.r1_nonneg; omega
  have hrem : 0 ≤ b.iter.r1 := (iter_remainder b.r0 b.r1 hr1).1
  have hlt := h.remainder_lt hr1
  have hcrossX : absVal b.iter.x1 * b.iter.r0 + absVal b.iter.x0 * b.iter.r1 = absVal m :=
    (coeff_step_crossSum h.altX hq).trans h.crossX
  have hcrossY : absVal b.iter.y1 * b.iter.r0 + absVal b.iter.y0 * b.iter.r1 = absVal a :=
    (coeff_step_crossSum h.altY hq).trans h.crossY
  have hx1 := mul_absVal_le_of_crossSum hcrossX hpos hrem
  have hy1 := mul_absVal_le_of_crossSum hcrossY hpos hrem
  have ha := h.absVal_a_le
  have hm := h.absVal_m_le
  exact {
    phase := h.phase, done := h.done, err := h.err
    a_lo := h.a_lo, a_hi := h.a_hi
    mreg := h.mreg, sa := h.sa, sb := h.sb
    modulus := h.modulus
    r0_nonneg := h.r1_nonneg, r1_nonneg := hrem
    bezout0 := h.bezout1
    bezout1 := by
      simp only [Block.iter_r1, Block.iter_x1, Block.iter_y1]
      linear_combination h.bezout0 - b.r0 / b.r1 * h.bezout1
    gcd := by
      have hstep : Int.gcd b.r1 (b.r0 - b.r0 / b.r1 * b.r1) = Int.gcd b.r0 b.r1 := by
        rw [Int.gcd_sub_mul_right_right, Int.gcd_comm]
      exact hstep.trans h.gcd
    altX := coeff_step_alternates h.altX hq
    altY := coeff_step_alternates h.altY hq
    crossX := hcrossX, crossY := hcrossY
    fits_r0 := h.fits_r1
    fits_r1 := h.fits_r1.of_nonneg_of_le hrem hlt.le
    fits_x0 := h.fits_x1
    fits_x1 := fitsIW_iff_absVal_le.mpr (by linarith)
    fits_y0 := h.fits_y1
    fits_y1 := fitsIW_iff_absVal_le.mpr (by linarith)
    small := .inr ⟨hlt, h.coeffs_small hW hr1⟩ }

/-- No product of ITER leaves IW bits: `q·r1` is at most `r0`, and `q·x1`, `q·y1` are no larger than the new
coefficients. -/
theorem Block.RunsOn.products_fit (h : b.RunsOn a m) (hW : legalWidth W = true) (hr1 : b.r1 ≠ 0) :
    FitsIW W (b.r0 / b.r1 * b.r1) ∧ FitsIW W (b.r0 / b.r1 * b.x1) ∧ FitsIW W (b.r0 / b.r1 * b.y1) := by
  have hq := h.quotient_nonneg
  have hnext := h.iter hW hr1
  have hprod : 0 ≤ b.r0 / b.r1 * b.r1 := mul_nonneg hq h.r1_nonneg
  have hrem : 0 ≤ b.r0 - b.r0 / b.r1 * b.r1 := hnext.r1_nonneg
  refine ⟨h.fits_r0.of_nonneg_of_le hprod (by linarith), ?_, ?_⟩
  · exact fitsIW_iff_absVal_le.mpr
      ((absVal_mul_le_coeff_step h.altX hq).trans (fitsIW_iff_absVal_le.mp hnext.fits_x1))
  · exact fitsIW_iff_absVal_le.mpr
      ((absVal_mul_le_coeff_step h.altY hq).trans (fitsIW_iff_absVal_le.mp hnext.fits_y1))

end RunsOn

/-- Settles O16: START sets up the relations, and ITER, the engine's step while r1 ≠ 0, keeps them. -/
theorem iterKeepsTheEuclidRelations : Obligations.IterKeepsTheEuclidRelations := by
  unfold Obligations.IterKeepsTheEuclidRelations
  refine ⟨fun W b op _ hm => b.accept_runsOn op hm, fun W b hrun hr1 => b.engineStep_iter hrun hr1, ?_⟩
  intro W b a m hW h hr1
  rw [b.engineStep_iter h.phase hr1]
  exact ⟨h.iter hW hr1, h.products_fit hW hr1⟩

end Sys2Proof.Machine
end

section
/-! PROOFS. What FINISH leaves in the result registers, for a command that runs on `a` and `m`: the greatest common
divisor with Bezout coefficients, the inverse, or NO_INVERSE (40_euclid.md R107, R111, R113, R116, R117). -/

namespace Sys2Proof.Machine

section RunsOn
variable {W : Nat} {b : Block W} {a m : Int}

/-- With the last remainder 0, `r0` is the greatest common divisor of the operands. -/
theorem Block.RunsOn.r0_eq_gcd (h : b.RunsOn a m) (hr1 : b.r1 = 0) : b.r0 = Int.gcd a m := by
  rw [← h.gcd, hr1, Int.gcd_zero_right, Int.natAbs_of_nonneg h.r0_nonneg]

/-- The sign step turns the relation of the sizes into Bezout's equation of the operands (40_euclid.md R104). -/
theorem Block.RunsOn.bezout (h : b.RunsOn a m) : a * b.coeffA + m * b.coeffB = b.r0 := by
  rw [Block.coeffA, Block.coeffB, h.sa, h.sb, mul_signFix, mul_signFix, ← h.bezout0]

theorem Block.RunsOn.absVal_coeffA_le (h : b.RunsOn a m) : absVal b.coeffA ≤ 2 ^ (W - 2) := by
  rw [Block.coeffA, absVal_signFix]
  rcases h.small with ⟨hx0, -, -, -⟩ | ⟨-, hx0, -⟩
  · rw [hx0]
    exact absVal_one_le_two_pow _
  · exact hx0

theorem Block.RunsOn.absVal_coeffB_le (h : b.RunsOn a m) : absVal b.coeffB ≤ 2 ^ (W - 2) := by
  rw [Block.coeffB, absVal_signFix]
  rcases h.small with ⟨-, -, hy0, -⟩ | ⟨-, -, hy0⟩
  · simp [hy0, absVal]
  · exact hy0

end RunsOn

/-- A coefficient within `±2^(W−2)` is read back from its word (40_euclid.md R117). -/
theorem sval_bitsW_of_absVal_le {W : Nat} (hW : legalWidth W = true) {n : Int} (hn : absVal n ≤ 2 ^ (W - 2)) :
    sval (bitsW W n) = n := by
  have hpos : (0 : Int) < 2 ^ (W - 2) := by positivity
  have hhalf := two_pow_sub_one_of_legalWidth hW
  obtain ⟨hlo, hhi⟩ := abs_le.mp ((absVal_eq_abs n).symm.trans_le hn)
  exact sval_bitsW (by have := legalWidth_iff.mp hW; omega) (by linarith) (by linarith)

/-- A value in `[0, 2^(W−1)]` is read back unsigned. -/
theorem uval_bitsW_of_le {W : Nat} (hW : legalWidth W = true) {n : Int} (h0 : 0 ≤ n) (hn : n ≤ 2 ^ (W - 1)) :
    (uval (bitsW W n) : Int) = n := by
  have hpos : (0 : Int) < 2 ^ (W - 1) := by positivity
  exact uval_bitsW h0 (by linarith [two_pow_of_legalWidth hW])

/-- Settles O18: FINISH narrows no result, so G, X and Y read back as the remainder and the coefficients, which the
relations tie to the operands. -/
theorem egcdFinishesWithGcdAndBezout : Obligations.EgcdFinishesWithGcdAndBezout := by
  unfold Obligations.EgcdFinishesWithGcdAndBezout
  intro W b a m hW h hop hr1
  have hG : (uval (bitsW W b.r0) : Int) = b.r0 := uval_bitsW_of_le hW h.r0_nonneg h.fits_r0.2
  have hA := h.absVal_coeffA_le
  have hB := h.absVal_coeffB_le
  rw [b.engineStep_finish h.phase hr1, b.finish_of_egcd hop]
  simp only [Block.complete_G, Block.complete_X, Block.complete_Y]
  rw [sval_bitsW_of_absVal_le hW hA, sval_bitsW_of_absVal_le hW hB]
  refine ⟨?_, h.bezout.trans hG.symm, ?_, ?_, ?_⟩
  · exact_mod_cast hG.trans (h.r0_eq_gcd hr1)
  · exact_mod_cast hG.trans_le h.fits_r0.2
  · rwa [absVal_eq_abs, abs_le] at hA
  · rwa [absVal_eq_abs, abs_le] at hB

/-! ### MODINV -/

section Inverse
variable {a m x y r : Int}

/-- Bezout's equation, read modulo `m`. -/
theorem mul_coeff_modEq_one (hbezout : a * x + m * y = 1) : a * x ≡ 1 [ZMOD m] :=
  Int.modEq_iff_dvd.mpr ⟨y, by linarith⟩

/-- The Bezout coefficient of `a`, reduced modulo `m`, is an inverse of `a`. -/
theorem fmod_mul_fmod_coeff (hbezout : a * x + m * y = 1) : fmod (a * fmod x m) m = fmod 1 m :=
  ((Int.mod_modEq x m).mul_left a).trans (mul_coeff_modEq_one hbezout)

/-- Every inverse of `a` in `[0, m)` is that one: multiply `a·r ≡ 1` by the coefficient of `a`. -/
theorem eq_fmod_coeff_of_fmod_mul (hbezout : a * x + m * y = 1) (h0 : 0 ≤ r) (hlt : r < m)
    (hr : fmod (a * r) m = fmod 1 m) : r = fmod x m := by
  have hinv : a * r ≡ 1 [ZMOD m] := hr
  have hrx : r ≡ x [ZMOD m] := by
    calc r = 1 * r := (one_mul r).symm
      _ ≡ a * x * r [ZMOD m] := (mul_coeff_modEq_one hbezout).symm.mul_right r
      _ = a * r * x := by ring
      _ ≡ 1 * x [ZMOD m] := hinv.mul_right x
      _ = x := one_mul x
  exact (Int.emod_eq_of_lt h0 hlt).symm.trans hrx

end Inverse

section RunsOn
variable {W : Nat} {b : Block W} {a m : Int}

/-- FINISH of MODINV reports NONE exactly when the operands are coprime, and NO_INVERSE otherwise. -/
theorem Block.RunsOn.finish_modinv_cases (h : b.RunsOn a m) (hop : b.op = .modinv) (hr1 : b.r1 = 0) :
    (Int.gcd a m = 1 ∧ b.r0 = 1 ∧
      b.engineStep = ({ b with R := bitsW W (fmod b.coeffA m) } : Block W).complete .none) ∨
    (Int.gcd a m ≠ 1 ∧ b.engineStep = b.complete .noInverse) := by
  have hgcd := h.r0_eq_gcd hr1
  rw [b.engineStep_finish h.phase hr1]
  by_cases hg : b.r0 = 1
  · exact .inl ⟨by omega, hg, by rw [b.finish_of_inverse hop hg, h.mreg]⟩
  · exact .inr ⟨by omega, b.finish_of_noInverse hop hg⟩

/-- The inverse MODINV writes is read back from R. -/
theorem Block.RunsOn.uval_inverse (h : b.RunsOn a m) (hW : legalWidth W = true) (hop : b.op = .modinv) :
    (uval (bitsW W (fmod b.coeffA m)) : Int) = fmod b.coeffA m := by
  obtain ⟨h0, hlt⟩ := fmod_range b.coeffA (h.modulus hop)
  have hm : m < 2 ^ (W - 1) := h.mreg ▸ (sval_range b.mreg).2
  exact uval_bitsW_of_le hW h0 (by linarith)

end RunsOn

/-- Settles O20: FINISH compares `r0`, the greatest common divisor, with 1. -/
theorem modinvReportsNoInverseExactly : Obligations.ModinvReportsNoInverseExactly := by
  unfold Obligations.ModinvReportsNoInverseExactly
  intro W b a m h hop hr1
  rcases h.finish_modinv_cases hop hr1 with ⟨hg, -, hfin⟩ | ⟨hg, hfin⟩
  · simp [hfin, hg]
  · simp [hfin, hg]

/-- Settles O19: R holds the coefficient of `a` reduced modulo `m`, and Bezout's equation makes that the one inverse. -/
theorem modinvFinishesWithTheUniqueInverse : Obligations.ModinvFinishesWithTheUniqueInverse := by
  unfold Obligations.ModinvFinishesWithTheUniqueInverse
  intro W b a m hW h hop hr1 herr
  rcases h.finish_modinv_cases hop hr1 with ⟨-, hg, hfin⟩ | ⟨-, hfin⟩
  case inr => rw [hfin, Block.complete_ERR] at herr; cases herr
  have hbezout : a * b.coeffA + m * b.coeffB = 1 := h.bezout.trans hg
  rw [hfin, Block.complete_R, h.uval_inverse hW hop]
  refine ⟨(fmod_range _ (h.modulus hop)).2, fmod_mul_fmod_coeff hbezout,
    fun _ => eq_fmod_coeff_of_fmod_mul hbezout, ?_⟩
  rintro rfl
  simp [fmod, bitsW]

end Sys2Proof.Machine
end

section
/-! PROOFS. The commands of the block at the write that issues them: NOP, CLRSTS, a reserved OPCODE, and the drop of any
of the others in RUN (41_control.md R140 to R145). -/

namespace Sys2Proof.Machine

section Block
variable {W : Nat} (b : Block W)

/-- In IDLE a cleared STATUS has no field set (10_state.md R31). -/
theorem Block.statusWord_clearStatus (h : b.phase = .idle) : b.clearStatus.statusWord = 0 := by
  simp [Block.statusWord, Block.busy, Err.code, h]

@[simp] theorem Block.irq_clearStatus : b.clearStatus.irq = false := rfl

/-- An error reported in IDLE sets ERR and DONE; the phase it completes to is the one it was in. -/
theorem Block.completeError_idle (code : Err) (h : b.phase = .idle) :
    b.completeError code = { b with ERR := code, DONE := true } := by
  rw [Block.completeError, Block.complete, ← h]

end Block

section State
variable (s : State)

/-- NOP alone does not look at the phase (41_control.md R144). -/
@[simp] theorem exec_nop : exec .nop s = .next s := rfl

theorem exec_clrsts_idle (h : s.blk.phase = .idle) : exec .clrsts s = .next (s.withBlk s.blk.clearStatus) :=
  congrArg s.goto (s.blk.unlessBusy_idle _ h)

theorem execReserved_idle (h : s.blk.phase = .idle) :
    execReserved s = .next (s.withBlk (s.blk.completeError .illegalCmd)) :=
  congrArg s.goto (s.blk.unlessBusy_idle _ h)

/-- What a command other than NOP would do in IDLE does not matter in RUN: it is dropped (41_control.md R143). -/
theorem goto_unlessBusy_run (act : Block s.W) (h : s.blk.phase = .run) :
    s.goto (s.blk.unlessBusy act) = .next (s.withBlk s.blk.drop) :=
  congrArg s.goto (s.blk.unlessBusy_run act h)

theorem execReserved_run (h : s.blk.phase = .run) : execReserved s = .next (s.withBlk s.blk.drop) :=
  goto_unlessBusy_run s _ h

theorem exec_run {i : Instr} (h : s.blk.phase = .run) (hi : i ≠ .nop) : exec i s = .next (s.withBlk s.blk.drop) := by
  cases i with
  | nop => exact absurd rfl hi
  | egcd => exact goto_unlessBusy_run s _ h
  | modinv => exact goto_unlessBusy_run s _ h
  | clrsts => exact goto_unlessBusy_run s _ h

/-- A word whose OPCODE is a command's issues that command. -/
theorem regWrite_cmdOffset_of_opcode {v : Word s.W} (i : Instr) (h : uval v % 256 = uval (opcode i)) :
    regWrite s cmdOffset v = exec i s :=
  issue_instr s ((decode_eq_instr_iff_uval v i).mpr h)

/-- A word whose OPCODE lies above the assigned ones issues the illegal command (30_encoding.md R86). -/
theorem regWrite_cmdOffset_of_reserved {v : Word s.W} (h : 0x04 ≤ uval v % 256) :
    regWrite s cmdOffset v = execReserved s := by
  obtain ⟨c, hc⟩ := (exists_decode_eq_reserved_iff v).mpr h
  exact issue_reserved s hc

/-- In RUN every word but a NOP's is dropped, reserved OPCODEs too (41_control.md R143). -/
theorem issue_run {v : Word s.W} (h : s.blk.phase = .run) (hv : decode v ≠ .instr .nop) :
    issue s v = .next (s.withBlk s.blk.drop) := by
  rcases issue_cases s v with ⟨i, hi, hissue⟩ | ⟨c, -, hissue⟩
  · exact hissue.trans (exec_run s h fun hnop => hv (hnop ▸ hi))
  · exact hissue.trans (execReserved_run s h)

end State

/-- Settles O8: a word with OPCODE 0x00 issues NOP, which has no arm for RUN. -/
theorem nopChangesNothing : Obligations.NopChangesNothing := by
  unfold Obligations.NopChangesNothing
  exact ⟨exec_nop, fun s _ h => regWrite_cmdOffset_of_opcode s .nop h⟩

/-- Settles O9: CLRSTS is `clearStatus` in IDLE and dropped in RUN. -/
theorem clrstsClearsTheStatus : Obligations.ClrstsClearsTheStatus := by
  unfold Obligations.ClrstsClearsTheStatus
  refine ⟨?_, fun s hrun => exec_run s hrun nofun, fun s _ h => regWrite_cmdOffset_of_opcode s .clrsts h⟩
  intro s hidle
  exact ⟨s.blk.clearStatus, exec_clrsts_idle s hidle, rfl, s.blk.statusWord_clearStatus hidle, s.blk.irq_clearStatus⟩

/-- Settles O12: the word decodes to a reserved OPCODE, which in IDLE is an error completion. -/
theorem reservedOpcodeIsIllegal : Obligations.ReservedOpcodeIsIllegal := by
  unfold Obligations.ReservedOpcodeIsIllegal
  intro s v hidle hv
  rw [regWrite_cmdOffset_of_reserved s hv, execReserved_idle s hidle, s.blk.completeError_idle _ hidle]

/-- Settles O13: in RUN the issue of such a word, and each command but NOP, is `drop`. -/
theorem commandInRunIsDropped : Obligations.CommandInRunIsDropped := by
  unfold Obligations.CommandInRunIsDropped
  exact ⟨fun s _ hrun hv => issue_run s hrun hv, fun s _ hrun hi => exec_run s hrun hi⟩

end Sys2Proof.Machine
end

section
/-! PROOFS. A CTRL write: the interrupt enable, and what is read back (10_state.md R30; 41_control.md R146). -/

namespace Sys2Proof.Machine

/-- A CTRL write does not look at the phase and issues no command (41_control.md R146). -/
@[simp] theorem regWrite_ctrlOffset (s : State) (v : Word s.W) :
    regWrite s RegName.CTRL.offset v = .next (s.withBlk { s.blk with IE := v.getLsbD 0 }) := rfl

/-- At a legal width the CTRL word has room for IE. -/
theorem Block.uval_ctrlWord {W : Nat} (b : Block W) (hW : legalWidth W = true) : uval b.ctrlWord = b.IE.toNat := by
  have hpow : 2 ^ 1 ≤ 2 ^ W := Nat.pow_le_pow_right (by decide) (by have := legalWidth_iff.mp hW; omega)
  rw [uval, Block.ctrlWord, BitVec.toNat_ofNat, Nat.mod_eq_of_lt (b.IE.toNat_lt.trans_le hpow)]

theorem toNat_getLsbD_zero {W : Nat} (v : Word W) : (v.getLsbD 0).toNat = uval v % 2 := by
  rw [BitVec.getLsbD, Nat.toNat_testBit, pow_zero, Nat.div_one, uval]

/-- Settles O25: the write replaces IE alone, and CTRL reads back IE. -/
theorem ctrlWriteSetsTheInterruptEnable : Obligations.CtrlWriteSetsTheInterruptEnable := by
  unfold Obligations.CtrlWriteSetsTheInterruptEnable
  intro s v hW
  refine ⟨_, regWrite_ctrlOffset s v, rfl, rfl, ?_⟩
  rw [Block.readReg_ctrlOffset, Block.uval_ctrlWord _ hW, toNat_getLsbD_zero]

end Sys2Proof.Machine
end

section
/-! PROOFS. The engine and the host's operand registers: a step of the engine commutes with a write to A and B
(70_reset_and_hazards.md R196). -/

namespace Sys2Proof.Machine

/-- The block after the host has written `v` to A and `w` to B. -/
abbrev Block.withOperands {W : Nat} (v w : Word W) (b : Block W) : Block W := { b with A := v, B := w }

@[simp] theorem regWrite_A (s : State) (v : Word s.W) :
    regWrite s RegName.A.offset v = .next (s.withBlk { s.blk with A := v }) := rfl

@[simp] theorem regWrite_B (s : State) (v : Word s.W) :
    regWrite s RegName.B.offset v = .next (s.withBlk { s.blk with B := v }) := rfl

section Block
variable {W : Nat} (v w : Word W) (b : Block W)

/-- ITER works on the working registers alone (40_euclid.md R102). -/
theorem Block.iter_withOperands : (b.withOperands v w).iter = b.iter.withOperands v w := rfl

/-- FINISH uses the working registers and the latched copies of the operands, in each outcome (40_euclid.md R103). -/
theorem Block.finish_withOperands : (b.withOperands v w).finish = b.finish.withOperands v w := by
  rcases b.finish_cases with ⟨hop, hfin⟩ | ⟨hop, hg, hfin⟩ | ⟨hop, hg, hfin⟩ <;> rw [hfin]
  · exact (b.withOperands v w).finish_of_egcd hop
  · exact (b.withOperands v w).finish_of_inverse hop hg
  · exact (b.withOperands v w).finish_of_noInverse hop hg

/-- Whether the engine rests, divides or finishes does not depend on the operand registers, nor does what it then does. -/
theorem Block.engineStep_withOperands : (b.withOperands v w).engineStep = b.engineStep.withOperands v w := by
  rcases b.engineStep_cases with ⟨hidle, hstep⟩ | ⟨hrun, hr1, hstep⟩ | ⟨hrun, hr1, hstep⟩ <;> rw [hstep]
  · exact (b.withOperands v w).engineStep_idle hidle
  · exact ((b.withOperands v w).engineStep_iter hrun hr1).trans (b.iter_withOperands v w)
  · exact ((b.withOperands v w).engineStep_finish hrun hr1).trans (b.finish_withOperands v w)

/-- Any number of engine steps commutes with the writes. -/
theorem Block.engineStep_iterate_withOperands (n : Nat) :
    (Block.engineStep)^[n] (b.withOperands v w) = ((Block.engineStep)^[n] b).withOperands v w :=
  have hcomm : Function.Commute (Block.engineStep (W := W)) (Block.withOperands v w) :=
    fun c => c.engineStep_withOperands v w
  hcomm.iterate_left n b

end Block

/-- Settles O21: a write to A or B replaces that register at once, and each engine step commutes with it. -/
theorem operandWritesDoNotDisturbTheEngine : Obligations.OperandWritesDoNotDisturbTheEngine := by
  unfold Obligations.OperandWritesDoNotDisturbTheEngine
  exact ⟨fun s v => ⟨regWrite_A s v, regWrite_B s v⟩, fun _ n b v w => b.engineStep_iterate_withOperands v w n⟩

end Sys2Proof.Machine
end

section
/-! PROOFS. Decode and encode agree: a command's word with any value in the ignored bits decodes to the command, and no
other word does (30_encoding.md R82, R85, R89). -/

namespace Sys2Proof

theorem opcodeOf_getLsbD {W : Nat} (v : Word W) {j : Nat} (hj : j < 8) : (opcodeOf v).getLsbD j = v.getLsbD j := by
  simp [opcodeOf, hj]

/-- The ignored bits start at bit 8, above the OPCODE (30_encoding.md R82). -/
theorem opcodeOf_or_shiftLeft {W : Nat} (v ign : Word W) : opcodeOf (v ||| ign <<< 8) = opcodeOf v := by
  apply BitVec.eq_of_getLsbD_eq
  intro j hj
  rw [opcodeOf_getLsbD _ hj, opcodeOf_getLsbD _ hj]
  simp [BitVec.getLsbD_or, BitVec.getLsbD_shiftLeft, hj]

/-- A word is its OPCODE in bits 7:0, with its own ignored bits above. -/
theorem eq_setWidth_opcodeOf_or {W : Nat} (v : Word W) : v = (opcodeOf v).setWidth W ||| (v >>> 8) <<< 8 := by
  apply BitVec.eq_of_getLsbD_eq
  intro j hj
  rw [BitVec.getLsbD_or, BitVec.getLsbD_setWidth, BitVec.getLsbD_shiftLeft, BitVec.getLsbD_ushiftRight]
  by_cases hlow : j < 8
  · simp only [hj, hlow, opcodeOf_getLsbD v hlow, decide_true, Bool.not_true, Bool.true_and, Bool.and_false,
      Bool.false_and, Bool.or_false]
  · have habove : (opcodeOf v).getLsbD j = false := BitVec.getLsbD_of_ge _ _ (by omega)
    have hsum : 8 + (j - 8) = j := by omega
    simp only [habove, hj, hlow, hsum, decide_true, decide_false, Bool.not_false, Bool.true_and, Bool.and_false,
      Bool.false_or]

theorem legalWidth_of_wellFormed {W : Nat} {i : Instr} (h : i.wellFormed W = true) : legalWidth W = true := by
  cases i <;> exact h

/-- Settles O3: the decoder sees the OPCODE alone, which ignored bits leave as it is; a word that decodes to `i` has the
OPCODE of `i` and is that OPCODE with its own ignored bits. -/
theorem decodeEncodeRoundTrip : Obligations.DecodeEncodeRoundTrip := by
  unfold Obligations.DecodeEncodeRoundTrip
  intro W i hwf
  have hW := minWidth_le_of_legalWidth (legalWidth_of_wellFormed hwf)
  constructor
  · intro ign
    rw [decode_eq_instr, opcodeOf_or_shiftLeft, opcodeOf_encode hW]
  · intro v hv
    refine ⟨v >>> 8, ?_⟩
    rw [encode, ← (decode_eq_instr v i).mp hv]
    exact eq_setWidth_opcodeOf_or v

/-- Settles O1: each word of the list is decoded by its low byte. -/
theorem tableWordsDecode : Obligations.TableWordsDecode := by
  unfold Obligations.TableWordsDecode
  decide

end Sys2Proof
end

section
/-! PROOFS. Everything a command, and a step with `rst` released, can do to the block. The whole-machine rules are read
off these two lists (41_control.md R140; 10_state.md R28 to R38; 40_euclid.md R100 to R103). -/

namespace Sys2Proof.Machine

/-- What the issue of a command makes of the block (41_control.md R140 to R145; 40_euclid.md R100, R110). -/
inductive Block.CommandEffect {W : Nat} (b : Block W) : Command → Block W → Prop
  | nop : b.CommandEffect (.instr .nop) b
  | drop {c : Command} (hrun : b.phase = .run) (hc : c ≠ .instr .nop) : b.CommandEffect c b.drop
  | egcd (hidle : b.phase = .idle) : b.CommandEffect (.instr .egcd) (b.clearOutcome.start .egcd b.A b.B)
  | modinv (hidle : b.phase = .idle) (hm : 1 ≤ sval b.B) :
      b.CommandEffect (.instr .modinv) (b.clearOutcome.start .modinv b.A b.B)
  | badModulus (hidle : b.phase = .idle) (hm : sval b.B ≤ 0) :
      b.CommandEffect (.instr .modinv) (b.completeError .badModulus)
  | clrsts (hidle : b.phase = .idle) : b.CommandEffect (.instr .clrsts) b.clearStatus
  | reserved {c : Opcode} (hidle : b.phase = .idle) : b.CommandEffect (.reserved c) (b.completeError .illegalCmd)

section State
variable (s : State)

theorem exec_modinv_idle_cases (hidle : s.blk.phase = .idle) :
    ∃ b, exec .modinv s = .next (s.withBlk b) ∧ s.blk.CommandEffect (.instr .modinv) b := by
  refine ⟨_, exec_modinv_idle s hidle, ?_⟩
  by_cases hm : sval s.blk.B ≤ 0
  · rw [s.blk.accept_badModulus hm]
    exact .badModulus hidle hm
  · have hm1 : 1 ≤ sval s.blk.B := by omega
    rw [s.blk.accept_start .modinv fun _ => hm1]
    exact .modinv hidle hm1

/-- The meaning of a command is one of the effects. -/
theorem exec_effect (i : Instr) : ∃ b, exec i s = .next (s.withBlk b) ∧ s.blk.CommandEffect (.instr i) b := by
  by_cases hnop : i = .nop
  · subst hnop
    exact ⟨s.blk, exec_nop s, .nop⟩
  cases hphase : s.blk.phase with
  | run => exact ⟨_, exec_run s hphase hnop, .drop hphase fun hc => hnop (Command.instr.inj hc)⟩
  | idle =>
    cases i with
    | nop => exact absurd rfl hnop
    | egcd => exact ⟨_, exec_egcd_idle s hphase, s.blk.accept_start .egcd nofun ▸ .egcd hphase⟩
    | modinv => exact exec_modinv_idle_cases s hphase
    | clrsts => exact ⟨_, exec_clrsts_idle s hphase, .clrsts hphase⟩

theorem execReserved_effect (c : Opcode) :
    ∃ b, execReserved s = .next (s.withBlk b) ∧ s.blk.CommandEffect (.reserved c) b := by
  cases hphase : s.blk.phase with
  | run => exact ⟨_, execReserved_run s hphase, .drop hphase nofun⟩
  | idle => exact ⟨_, execReserved_idle s hphase, .reserved hphase⟩

theorem issue_effect (v : Word s.W) : ∃ b, issue s v = .next (s.withBlk b) ∧ s.blk.CommandEffect (decode v) b := by
  rcases issue_cases s v with ⟨i, hdec, hissue⟩ | ⟨c, hdec, hissue⟩ <;> rw [hissue, hdec]
  · exact exec_effect s i
  · exact execReserved_effect s c

/-- What a step makes of the block while no reset is asserted: nothing, the host's write to a register it owns, an
engine step, or the effect of the command the host issues. -/
inductive State.BlockChange : Block s.W → Prop
  | none : State.BlockChange s.blk
  | writeA {v : Word s.W} {as : List (HostAction s.W)} (hp : s.env.pending = .write 0x0 v :: as) :
      State.BlockChange { s.blk with A := v }
  | writeB {v : Word s.W} {as : List (HostAction s.W)} (hp : s.env.pending = .write 0x1 v :: as) :
      State.BlockChange { s.blk with B := v }
  | writeIE {v : Word s.W} {as : List (HostAction s.W)} (hp : s.env.pending = .write 0x3 v :: as) :
      State.BlockChange { s.blk with IE := v.getLsbD 0 }
  | iter (hrun : s.blk.phase = .run) (hr1 : s.blk.r1 ≠ 0) : State.BlockChange s.blk.iter
  | finish (hrun : s.blk.phase = .run) (hr1 : s.blk.r1 = 0) : State.BlockChange s.blk.finish
  | command {c : Command} {b : Block s.W} (hissues : s.Issues c) (heffect : s.blk.CommandEffect c b) :
      State.BlockChange b

theorem blockChange_engineStep : s.BlockChange s.blk.engineStep := by
  rcases s.blk.engineStep_cases with ⟨-, hstep⟩ | ⟨hrun, hr1, hstep⟩ | ⟨hrun, hr1, hstep⟩ <;> rw [hstep]
  · exact .none
  · exact .iter hrun hr1
  · exact .finish hrun hr1

/-- The write the host has pending, on whatever is left of its side. -/
theorem blockChange_regWrite {off : Offset} {v : Word s.W} {as : List (HostAction s.W)}
    (hp : s.env.pending = .write off v :: as) (e : Env s.W) :
    ∃ b, regWrite ⟨s.W, s.blk, e⟩ off v = .next ⟨s.W, b, e⟩ ∧ s.BlockChange b := by
  rcases regWrite_cases ⟨s.W, s.blk, e⟩ off v with
    ⟨rfl, hw⟩ | ⟨rfl, hw⟩ | ⟨rfl, hw⟩ | ⟨rfl, hw⟩ | ⟨-, hw⟩ <;> rw [hw]
  · exact ⟨_, rfl, .writeA hp⟩
  · exact ⟨_, rfl, .writeB hp⟩
  · obtain ⟨b, hissue, heffect⟩ := issue_effect ⟨s.W, s.blk, e⟩ v
    exact ⟨b, hissue, .command ⟨v, as, hp, rfl⟩ heffect⟩
  · exact ⟨_, rfl, .writeIE hp⟩
  · exact ⟨_, rfl, .none⟩

end State

/-- A step from a state with `rst` released makes one of these changes, or asserts `rst` and resets the block. -/
theorem step_blockChange_or_reset {s t : State} (h : step s = .next t) (hs : s.env.rst = false) :
    (∃ (b : Block s.W) (e : Env s.W), t = ⟨s.W, b, e⟩ ∧ e.rst = false ∧ s.BlockChange b) ∨
    (∃ e : Env s.W, t = ⟨s.W, Block.reset s.W, e⟩ ∧ e.rst = true) := by
  obtain ⟨-, ⟨e, rfl, he⟩ | ⟨e, rfl, he⟩ | ⟨e, off, v, as, hp, he, hw⟩ | hreset⟩ := step_cases s h hs
  · exact .inl ⟨_, e, rfl, he, .none⟩
  · exact .inl ⟨_, e, rfl, he, blockChange_engineStep s⟩
  · obtain ⟨b, hb, hchange⟩ := blockChange_regWrite s hp e
    exact .inl ⟨b, e, (Host.Outcome.next.inj (hb.symm.trans hw)).symm, he, hchange⟩
  · exact .inr hreset

/-- A step that begins and ends with `rst` released makes one of these changes. -/
theorem step_blockChange {s t : State} (h : step s = .next t) (hs : s.env.rst = false) (ht : t.env.rst = false) :
    ∃ (b : Block s.W) (e : Env s.W), t = ⟨s.W, b, e⟩ ∧ s.BlockChange b := by
  rcases step_blockChange_or_reset h hs with ⟨b, e, rfl, -, hchange⟩ | ⟨e, rfl, he⟩
  · exact ⟨b, e, rfl, hchange⟩
  · exact nomatch he.symm.trans ht

/-! ### What FINISH leaves as it was -/

section Block
variable {W : Nat} (b : Block W)

/-- FINISH writes results, STATUS and phase, and nothing else (40_euclid.md R103). -/
theorem Block.finish_writes : b.finish = { b with
    G := b.finish.G, X := b.finish.X, Y := b.finish.Y, R := b.finish.R, ERR := b.finish.ERR
    DONE := true, phase := .idle } := by
  rcases b.finish_cases with ⟨-, h⟩ | ⟨-, -, h⟩ | ⟨-, -, h⟩ <;> rw [h] <;> rfl

@[simp] theorem Block.finish_phase : b.finish.phase = .idle := by rw [b.finish_writes]
@[simp] theorem Block.finish_DONE : b.finish.DONE = true := by rw [b.finish_writes]
@[simp] theorem Block.finish_A : b.finish.A = b.A := by rw [b.finish_writes]
@[simp] theorem Block.finish_B : b.finish.B = b.B := by rw [b.finish_writes]
@[simp] theorem Block.finish_IE : b.finish.IE = b.IE := by rw [b.finish_writes]
@[simp] theorem Block.finish_OVR : b.finish.OVR = b.OVR := by rw [b.finish_writes]

/-- EGCD writes G, X and Y, and not R (40_euclid.md R106). -/
theorem Block.finish_R_of_egcd (hop : b.op = .egcd) : b.finish.R = b.R := by
  rw [b.finish_of_egcd hop]; rfl

/-- MODINV writes R at most (40_euclid.md R111, R112). -/
theorem Block.finish_results_of_modinv (hop : b.op = .modinv) :
    b.finish.G = b.G ∧ b.finish.X = b.X ∧ b.finish.Y = b.Y := by
  by_cases hg : b.r0 = 1
  · rw [b.finish_of_inverse hop hg]
    exact ⟨rfl, rfl, rfl⟩
  · rw [b.finish_of_noInverse hop hg]
    exact ⟨rfl, rfl, rfl⟩

/-- Only NO_INVERSE is an error at FINISH, and it writes no result (40_euclid.md R111). -/
theorem Block.finish_ERR_cases :
    (b.op = .modinv ∧ b.r0 ≠ 1 ∧ b.finish.ERR = .noInverse ∧ b.finish.R = b.R) ∨
    ((b.op = .egcd ∨ b.r0 = 1) ∧ b.finish.ERR = .none) := by
  rcases b.finish_cases with ⟨hop, h⟩ | ⟨-, hg, h⟩ | ⟨hop, hg, h⟩ <;> rw [h]
  · exact .inr ⟨.inl hop, rfl⟩
  · exact .inr ⟨.inr hg, rfl⟩
  · exact .inl ⟨hop, hg, rfl, rfl⟩

end Block

end Sys2Proof.Machine
end

section
/-! PROOFS. The whole-machine rules: which step may change a register, the phase or a flag. Each goes through the list
of changes a step can make and names the ones that touch the field. -/

namespace Sys2Proof.Machine

/-- A field that a change leaves as it was does not go from one value to another. -/
theorem not_changed {α : Type} {x y u v : α} {P : Prop} (hkept : y = x) (huv : u ≠ v) (hx : x = u) (hy : y = v) : P :=
  absurd (hx.symm.trans (hkept.symm.trans hy)) huv

/-- A command writes no result register: the results wait for FINISH (70_reset_and_hazards.md R194). -/
theorem Block.CommandEffect.results {W : Nat} {b b' : Block W} {c : Command} (h : b.CommandEffect c b') :
    b'.G = b.G ∧ b'.X = b.X ∧ b'.Y = b.Y ∧ b'.R = b.R := by
  cases h <;> exact ⟨rfl, rfl, rfl, rfl⟩

/-- A command writes none of the host's registers (10_state.md R28). -/
theorem Block.CommandEffect.hostRegisters {W : Nat} {b b' : Block W} {c : Command} (h : b.CommandEffect c b') :
    b'.A = b.A ∧ b'.B = b.B ∧ b'.IE = b.IE := by
  cases h <;> exact ⟨rfl, rfl, rfl⟩

/-- Settles O37: of the changes a step can make, FINISH alone writes a result. -/
theorem resultsChangeOnlyAtFinish : Obligations.ResultsChangeOnlyAtFinish := by
  unfold Obligations.ResultsChangeOnlyAtFinish
  intro s t hstep hs ht
  obtain ⟨b, e, rfl, hchange⟩ := step_blockChange hstep hs ht
  cases hchange with
  | finish hrun hr1 =>
    left
    refine ⟨hrun, hr1, s.blk.finish_phase, s.blk.finish_DONE, ?_, ?_, ?_⟩
    · intro hop
      rw [s.blk.finish_R_of_egcd hop]
    · intro hop
      obtain ⟨hG, hX, hY⟩ := s.blk.finish_results_of_modinv hop
      rw [hG, hX, hY]
      exact ⟨rfl, rfl, rfl⟩
    · intro herr
      rcases s.blk.finish_ERR_cases with ⟨-, -, -, hR⟩ | ⟨-, hnone⟩
      · rw [hR]
      · exact absurd hnone herr
  | command _ heffect =>
    obtain ⟨hG, hX, hY, hR⟩ := heffect.results
    exact .inr ⟨by rw [hG], by rw [hX], by rw [hY], by rw [hR]⟩
  | none | writeA | writeB | writeIE | iter => exact .inr ⟨rfl, rfl, rfl, rfl⟩

/-- Settles O38: the host's writes to A, B and CTRL are the only changes that touch these registers. -/
theorem onlyTheHostWritesItsRegisters : Obligations.OnlyTheHostWritesItsRegisters := by
  unfold Obligations.OnlyTheHostWritesItsRegisters
  intro s t hstep hs ht
  obtain ⟨b, e, rfl, hchange⟩ := step_blockChange hstep hs ht
  cases hchange with
  | writeA hp => exact ⟨.inr ⟨_, _, hp, rfl⟩, .inl rfl, .inl rfl⟩
  | writeB hp => exact ⟨.inl rfl, .inr ⟨_, _, hp, rfl⟩, .inl rfl⟩
  | writeIE hp => exact ⟨.inl rfl, .inl rfl, .inr ⟨_, _, hp, rfl⟩⟩
  | finish =>
    exact ⟨.inl (congrArg uval s.blk.finish_A), .inl (congrArg uval s.blk.finish_B), .inl s.blk.finish_IE⟩
  | command _ heffect =>
    obtain ⟨hA, hB, hIE⟩ := heffect.hostRegisters
    exact ⟨.inl (congrArg uval hA), .inl (congrArg uval hB), .inl hIE⟩
  | none | iter => exact ⟨.inl rfl, .inl rfl, .inl rfl⟩

/-- Settles O39: the two starts are the only way to RUN, and FINISH the only way back. -/
theorem phaseChangesOnlyByStartAndFinish : Obligations.PhaseChangesOnlyByStartAndFinish := by
  unfold Obligations.PhaseChangesOnlyByStartAndFinish
  intro s t hstep hs ht
  obtain ⟨b, e, rfl, hchange⟩ := step_blockChange hstep hs ht
  cases hchange with
  | finish hrun hr1 => exact ⟨fun hidle => by simp [hidle] at hrun, fun _ _ => ⟨hr1, s.blk.finish_DONE⟩⟩
  | command hissues heffect =>
    cases heffect with
    | egcd hidle => exact ⟨fun _ _ => .inl hissues, fun hrun => by simp [hidle] at hrun⟩
    | modinv hidle hm => exact ⟨fun _ _ => .inr ⟨hissues, hm⟩, fun hrun => by simp [hidle] at hrun⟩
    | badModulus hidle | reserved hidle => simp [hidle]
    | nop | drop | clrsts => exact ⟨not_changed rfl nofun, not_changed rfl nofun⟩
  | none | writeA | writeB | writeIE | iter => exact ⟨not_changed rfl nofun, not_changed rfl nofun⟩

/-- Settles O40: FINISH and the two error completions set DONE; the starts and CLRSTS clear it. -/
theorem doneChangesOnlyAsStated : Obligations.DoneChangesOnlyAsStated := by
  unfold Obligations.DoneChangesOnlyAsStated
  intro s t hstep hs ht
  obtain ⟨b, e, rfl, hchange⟩ := step_blockChange hstep hs ht
  cases hchange with
  | finish hrun hr1 => exact ⟨fun _ _ => .inl ⟨hrun, hr1, s.blk.finish_phase⟩, by simp⟩
  | command hissues heffect =>
    cases heffect with
    | egcd hidle => exact ⟨by simp, fun _ _ => ⟨hidle, .inl hissues⟩⟩
    | modinv hidle hm => exact ⟨by simp, fun _ _ => ⟨hidle, .inr (.inl ⟨hissues, hm⟩)⟩⟩
    | clrsts hidle => exact ⟨by simp, fun _ _ => ⟨hidle, .inr (.inr hissues)⟩⟩
    | badModulus hidle hm => exact ⟨fun _ _ => .inr (.inl ⟨hidle, hissues, hm, rfl⟩), by simp⟩
    | reserved hidle => exact ⟨fun _ _ => .inr (.inr ⟨hidle, ⟨_, hissues⟩, rfl⟩), by simp⟩
    | nop | drop => exact ⟨not_changed rfl nofun, not_changed rfl nofun⟩
  | none | writeA | writeB | writeIE | iter => exact ⟨not_changed rfl nofun, not_changed rfl nofun⟩

/-- Settles O41: a dropped command sets OVR, CLRSTS clears it, and no other change touches it. -/
theorem ovrChangesOnlyAsStated : Obligations.OvrChangesOnlyAsStated := by
  unfold Obligations.OvrChangesOnlyAsStated
  intro s t hstep hs ht
  obtain ⟨b, e, rfl, hchange⟩ := step_blockChange hstep hs ht
  cases hchange with
  | command hissues heffect =>
    cases heffect with
    | drop hrun hc => exact ⟨fun _ _ => ⟨hrun, _, hissues, hc⟩, by simp⟩
    | clrsts hidle => exact ⟨by simp, fun _ _ => ⟨hidle, hissues⟩⟩
    | nop | egcd | modinv | badModulus | reserved => exact ⟨not_changed rfl nofun, not_changed rfl nofun⟩
  | finish => exact ⟨not_changed s.blk.finish_OVR nofun, not_changed s.blk.finish_OVR nofun⟩
  | none | writeA | writeB | writeIE | iter => exact ⟨not_changed rfl nofun, not_changed rfl nofun⟩

/-- Settles O49: acceptance and CLRSTS write NONE, FINISH its outcome, and the two error completions their code. -/
theorem errChangesOnlyAsStated : Obligations.ErrChangesOnlyAsStated := by
  unfold Obligations.ErrChangesOnlyAsStated
  intro s t hstep hs ht hne
  obtain ⟨b, e, rfl, hchange⟩ := step_blockChange hstep hs ht
  cases hchange with
  | finish hrun hr1 =>
    refine .inr (.inl ⟨hrun, hr1, s.blk.finish_phase, s.blk.finish_DONE, ?_⟩)
    rcases s.blk.finish_ERR_cases with ⟨hop, hg, herr, -⟩ | ⟨hop, herr⟩
    · exact .inl ⟨hop, hg, herr⟩
    · exact .inr ⟨hop, herr⟩
  | command hissues heffect =>
    cases heffect with
    | egcd hidle => exact .inl ⟨hidle, rfl, rfl, .inl hissues⟩
    | modinv hidle hm => exact .inl ⟨hidle, rfl, rfl, .inr (.inl ⟨hissues, hm⟩)⟩
    | clrsts hidle => exact .inl ⟨hidle, rfl, rfl, .inr (.inr hissues)⟩
    | badModulus hidle hm => exact .inr (.inr (.inl ⟨hidle, hissues, hm, rfl, rfl⟩))
    | reserved hidle => exact .inr (.inr (.inr ⟨hidle, ⟨_, hissues⟩, rfl, rfl⟩))
    | nop | drop => exact absurd rfl hne
  | none | writeA | writeB | writeIE | iter => exact absurd rfl hne

/-! ### The frame of a command -/

/-- Away from STATUS a read sees A, B, CTRL and the results alone (20_memory.md R51). -/
theorem Block.readReg_eq_of_ne_statusOffset {W : Nat} {b c : Block W} (hA : b.A = c.A) (hB : b.B = c.B)
    (hIE : b.IE = c.IE) (hG : b.G = c.G) (hX : b.X = c.X) (hY : b.Y = c.Y) (hR : b.R = c.R) {off : Offset}
    (hoff : off ≠ statusOffset) : b.readReg off = c.readReg off := by
  have hreg : Reg.ofOffset off ≠ .STATUS := by revert off; decide
  unfold Block.readReg Block.ctrlWord
  split
  case h_5 hstatus => exact absurd hstatus hreg
  all_goals simp_all

/-- Settles O14: no command writes A, B, CTRL or a result, so STATUS alone can read differently. -/
theorem commandsWriteOnlyStatus : Obligations.CommandsWriteOnlyStatus := by
  unfold Obligations.CommandsWriteOnlyStatus
  intro i s
  obtain ⟨b, hexec, heffect⟩ := exec_effect s i
  obtain ⟨hA, hB, hIE⟩ := heffect.hostRegisters
  obtain ⟨hG, hX, hY, hR⟩ := heffect.results
  refine ⟨b, hexec, fun off => Block.readReg_eq_of_ne_statusOffset hA hB hIE hG hX hY hR, ?_⟩
  cases heffect with
  | nop => exact ⟨fun hne => absurd rfl hne, fun hrun => ⟨hrun, rfl, rfl⟩⟩
  | drop hrun hi => exact ⟨fun _ => .inl ⟨hrun, rfl, fun h => hi (congrArg Command.instr h)⟩, fun _ => ⟨hrun, rfl, rfl⟩⟩
  | clrsts hidle => exact ⟨fun _ => .inr ⟨hidle, rfl, rfl⟩, by simp [hidle]⟩
  | egcd hidle | modinv hidle | badModulus hidle => exact ⟨fun hne => absurd rfl hne, by simp [hidle]⟩

end Sys2Proof.Machine
end

section
/-! PROOFS. Reset: the values it leaves, what a step does while `rst` is asserted, and the commands issued straight
after it (70_reset_and_hazards.md R190 to R193). -/

namespace Sys2Proof.Machine

section Reset
variable {W : Nat}

theorem Block.reset_atReset : (Block.reset W).AtReset := by constructor <;> rfl

@[simp] theorem Block.reset_statusWord : (Block.reset W).statusWord = 0 := rfl

/-- The engine rests at reset (10_state.md R38). -/
@[simp] theorem Block.reset_engineStep : (Block.reset W).engineStep = Block.reset W := rfl

/-- At reset every offset reads 0. -/
@[simp] theorem Block.reset_readReg (off : Offset) : (Block.reset W).readReg off = 0 := by
  unfold Block.readReg
  split <;> rfl

end Reset

/-- Settles O4: the block of `State.resetAt` is `Block.reset`. -/
theorem resetLeavesTheStatedValues : Obligations.ResetLeavesTheStatedValues := by
  unfold Obligations.ResetLeavesTheStatedValues
  exact fun W => ⟨Block.reset_atReset, rfl, Block.reset_statusWord, rfl⟩

section State
variable (s : State)

/-! ### A step while `rst` is asserted -/

/-- Where the width is legal and `rst` asserted, a step is what the next turn does to the block at reset. -/
theorem step_asserted (hW : legalWidth s.W = true) (h : s.env.rst = true) :
    step s = perform (s.withBlk (Block.reset s.W)).schedule.1 (s.withBlk (Block.reset s.W)).schedule.2 := by
  rw [step, if_pos hW, settle_of_asserted s h]

theorem step_asserted_settled (hW : legalWidth s.W = true) (h : s.env.rst = true) {u : Turn} {ts : List Turn}
    (hu : s.env.turns = u :: ts) : step s = perform u ((s.withBlk (Block.reset s.W)).withTurns ts) := by
  rw [step_asserted s hW h, schedule_settled (s.withBlk (Block.reset s.W)) u ts hu]

/-- With no turn settled the host moves, for the block at reset is in IDLE (log 5). -/
theorem step_asserted_unsettled (hW : legalWidth s.W = true) (h : s.env.rst = true) (hts : s.env.turns = []) :
    step s = hostTurn (s.withBlk (Block.reset s.W)) := by
  rw [step_asserted s hW h, schedule_idle (s.withBlk (Block.reset s.W)) hts rfl]; rfl

/-- With no turn settled, settling the host's changes nothing. -/
theorem withTurns_nil (h : s.env.turns = []) : s.withTurns [] = s := by rw [State.withTurns, ← h]

/-- A turn taken with `rst` asserted leaves the block at reset; the level falls by a turn that releases it. -/
theorem perform_asserted (u : Turn) (hblk : s.blk = Block.reset s.W) (h : s.env.rst = true) :
    ∃ e : Env s.W, perform u s = .next ⟨s.W, Block.reset s.W, e⟩ ∧ (e.rst = false → u = .rst false) := by
  cases u with
  | host =>
    obtain ⟨e, hturn, hrst⟩ := hostTurn_asserted s h
    exact ⟨e, hblk ▸ hturn, fun hreleased => nomatch hrst.symm.trans hreleased⟩
  | engine =>
    refine ⟨s.env, ?_, fun hreleased => nomatch h.symm.trans hreleased⟩
    rw [perform, engineTurn, hblk, Block.reset_engineStep]
  | rst level =>
    cases level
    · exact ⟨_, by rw [perform, rstTurn, hblk]; rfl, fun _ => rfl⟩
    · exact ⟨_, rfl, nofun⟩

/-- EVERYTHING A STEP CAN DO while `rst` is asserted: the block is at reset after it, and the level falls only by a
settled turn that releases it (70_reset_and_hazards.md R190). -/
theorem step_asserted_next (hW : legalWidth s.W = true) (h : s.env.rst = true) :
    ∃ e : Env s.W, step s = .next ⟨s.W, Block.reset s.W, e⟩ ∧
      (e.rst = false → ∃ ts, s.env.turns = .rst false :: ts) := by
  cases hts : s.env.turns with
  | nil =>
    obtain ⟨e, hturn, hrst⟩ := perform_asserted (s.withBlk (Block.reset s.W)) .host rfl h
    exact ⟨e, (step_asserted_unsettled s hW h hts).trans hturn, fun hreleased => nomatch hrst hreleased⟩
  | cons u ts =>
    obtain ⟨e, hturn, hrst⟩ := perform_asserted ((s.withBlk (Block.reset s.W)).withTurns ts) u rfl h
    exact ⟨e, (step_asserted_settled s hW h hts).trans hturn, fun hreleased => ⟨ts, by rw [hrst hreleased]⟩⟩

end State

/-- Settles O6: a step while `rst` is asserted starts from the block at reset, whose every offset reads 0, and no turn
moves it from there. -/
theorem assertedResetHoldsTheBlock : Obligations.AssertedResetHoldsTheBlock := by
  unfold Obligations.AssertedResetHoldsTheBlock
  intro s hW hrst
  obtain ⟨e, hstep, hlevel⟩ := step_asserted_next s hW hrst
  refine ⟨⟨_, hstep, Block.reset_atReset⟩, ?_, ?_, ?_, ?_, ?_⟩
  · intro off as ts hts hp
    refine ⟨Block.reset s.W, Block.reset_atReset, ?_⟩
    rw [step_asserted_settled s hW hrst hts, perform, hostTurn]
    simp [hp]
  · intro off v as ts hts hp
    refine ⟨Block.reset s.W, Block.reset_atReset, ?_⟩
    rw [step_asserted_settled s hW hrst hts, perform, hostTurn]
    simp [hp, hrst]
  · intro ts hts
    exact ⟨Block.reset s.W, Block.reset_atReset, step_asserted_settled s hW hrst hts⟩
  · intro t ht hreleased
    obtain rfl := Host.Outcome.next.inj (hstep.symm.trans ht)
    exact hlevel hreleased
  · intro hts
    rw [step_asserted_unsettled s hW hrst hts, step_asserted_settled (s.withTurns [.host]) hW hrst rfl]
    exact congrArg (fun u => hostTurn (u.withBlk (Block.reset u.W))) (withTurns_nil s hts).symm

/-- Settles O5: the turn resets the block, whether `rst` was asserted before it or not. -/
theorem assertingResetEndsTheCommand : Obligations.AssertingResetEndsTheCommand := by
  unfold Obligations.AssertingResetEndsTheCommand
  intro s ts hW hts
  cases hrst : s.env.rst with
  | false => exact ⟨_, step_settled s hW hrst _ ts hts, Block.reset_atReset, rfl, rfl⟩
  | true => exact ⟨_, step_asserted_settled s hW hrst hts, Block.reset_atReset, rfl, rfl⟩

@[simp] theorem sval_zero (W : Nat) : sval 0#W = 0 := BitVec.toInt_zero

/-- EGCD on A = B = 0 starts with r1 = 0, so that its first step is FINISH, and with the coefficients 1 and 0. -/
theorem Block.engineStep_accept_egcd_reset (W : Nat) :
    ((Block.reset W).accept .egcd).engineStep =
      ({ (Block.reset W).accept .egcd with G := 0, X := 1, Y := 0 } : Block W).complete .none := by
  rw [(Block.reset W).accept_start .egcd nofun, Block.engineStep_finish _ rfl, Block.finish_of_egcd _ rfl]
  · simp [Block.reset, Block.coeffA, Block.coeffB, signFix, bitsW, absVal]
  · simp [Block.reset, absVal]

/-- Settles O7: EGCD is at FINISH when it starts, and 0 is no modulus for MODINV. -/
theorem commandsStraightAfterReset : Obligations.CommandsStraightAfterReset := by
  unfold Obligations.CommandsStraightAfterReset
  intro W _
  constructor
  · refine ⟨_, exec_egcd_idle (State.resetAt W) rfl, ?_⟩
    have hrun := ((Block.reset W).accept_runsOn .egcd nofun).phase
    rw [State.resetAt_blk, Block.engineStep_accept_egcd_reset]
    exact ⟨hrun, rfl, rfl, rfl, by rw [(Block.reset W).accept_start .egcd nofun]; rfl⟩
  · have hm : sval (Block.reset W).B ≤ 0 := (sval_zero W).le
    refine ⟨_, exec_modinv_idle (State.resetAt W) rfl, ?_⟩
    rw [State.resetAt_blk, Block.accept_badModulus _ hm]
    rfl

end Sys2Proof.Machine
end

section
/-! PROOFS. One step of the machine: what each turn does, and whose turn comes when none is settled (00_scope.md R11;
20_memory.md R52, R53; 30_encoding.md R91; 41_control.md R140; 70_reset_and_hazards.md R199). -/

namespace Sys2Proof.Machine

section State
variable (s : State)

/-! ### The host's turn -/

theorem hostTurn_nil (hp : s.env.pending = []) : hostTurn s = .next s := by
  unfold hostTurn; rw [hp]

theorem hostTurn_read {off : Offset} {as : List (HostAction s.W)} (hp : s.env.pending = .read off :: as) :
    hostTurn s = .next ((s.withPending as).recordRead off) := by
  unfold hostTurn; rw [hp]

/-- `wait_done` stays the next action exactly while BUSY = 1 (30_encoding.md R91). -/
theorem hostTurn_waitDone {as : List (HostAction s.W)} (hp : s.env.pending = .waitDone :: as) :
    hostTurn s = .next
      ((s.withPending (if s.blk.phase = .run then .waitDone :: as else as)).recordRead statusOffset) := by
  unfold hostTurn
  rw [hp]
  cases hphase : s.blk.phase <;> simp [Block.busy, hphase, ← hp]

/-- A turn always has a next state, of the same width: nothing faults (60_exceptions.md R166, R170). -/
theorem hostTurn_next : ∃ (b : Block s.W) (e : Env s.W), hostTurn s = .next ⟨s.W, b, e⟩ := by
  rcases hostTurn_cases s with ⟨e, hturn, -, -⟩ | ⟨off, v, as, -, -, hturn⟩
  · exact ⟨_, e, hturn⟩
  · obtain ⟨b, hwrite⟩ := regWrite_next (s.withPending as) off v
    exact ⟨b, _, hturn.trans hwrite⟩

theorem perform_next (u : Turn) : ∃ (b : Block s.W) (e : Env s.W), perform u s = .next ⟨s.W, b, e⟩ := by
  cases u with
  | host => exact hostTurn_next s
  | engine => exact ⟨_, _, rfl⟩
  | rst level => exact ⟨_, _, rfl⟩

/-- Releasing `rst` where it is released changes nothing. -/
theorem perform_release (h : s.env.rst = false) : perform (.rst false) s = .next s :=
  congrArg (fun level => (.next ⟨s.W, s.blk, { s.env with rst := level }⟩ : Result)) h.symm

/-! ### The order of the agents -/

/-- With no turn settled and nothing for the host to do, the engine moves in RUN (log 5). -/
theorem schedule_run_nil (ht : s.env.turns = []) (hrun : s.blk.phase = .run) (hp : s.env.pending = []) :
    s.schedule = (.engine, s) := by
  unfold State.schedule; rw [ht]; simp only [hrun, hp]

/-- A burst of host turns, of the length the model draws next, then a turn of the engine (log 5). -/
abbrev State.withBurst (s : State) : State := { s with env := { s.env with
  turns := List.replicate (Config.hostBurst s.env.tick) .host ++ [.engine], tick := s.env.tick + 1 } }

/-- With no turn settled and both agents able to act, the next turn is the first of such a burst (log 5;
70_reset_and_hazards.md R199). -/
theorem schedule_run_burst (ht : s.env.turns = []) (hrun : s.blk.phase = .run) (hp : s.env.pending ≠ []) :
    s.schedule = s.withBurst.schedule := by
  obtain ⟨a, as, hp⟩ := List.exists_cons_of_ne_nil hp
  unfold State.schedule
  rw [ht]
  simp only [hrun, hp]
  cases Config.hostBurst s.env.tick with
  | zero => simp [ht, hp]
  | succ n => simp [hp, List.replicate_succ]

end State

/-- Settles O31: the three cases of an unsettled turn, with the burst that the model draws as the finite one. -/
theorem unsettledTurnsAreAFairBurst : Obligations.UnsettledTurnsAreAFairBurst := by
  unfold Obligations.UnsettledTurnsAreAFairBurst
  intro s hW hrst hts
  refine ⟨?_, ?_, ?_⟩
  · intro hrun hp
    rw [step_released s hW hrst, schedule_run_nil s hts hrun hp]
    rfl
  · intro hrun hp
    refine ⟨Config.hostBurst s.env.tick, ?_⟩
    rw [step_released s hW hrst, schedule_run_burst s hts hrun hp]
    exact (step_released s.withBurst hW hrst).symm
  · intro hidle
    rw [step_released s hW hrst, schedule_idle s hts hidle, step_settled (s.withTurns [.host]) hW hrst .host [] rfl]
    exact congrArg hostTurn (withTurns_nil s hts).symm

/-- Settles O33: whichever turn is taken, it has a next state of the same width. -/
theorem legalStepsAlwaysComplete : Obligations.LegalStepsAlwaysComplete := by
  unfold Obligations.LegalStepsAlwaysComplete
  intro s hW
  have hlegal := legalWidth_iff.mpr hW
  cases hrst : s.env.rst with
  | true =>
    obtain ⟨e, hstep, -⟩ := step_asserted_next s hlegal hrst
    exact ⟨_, hstep, rfl⟩
  | false =>
    obtain ⟨e, hsched, -⟩ := schedule_state s
    obtain ⟨b, e', hturn⟩ := perform_next ⟨s.W, s.blk, e⟩ s.schedule.1
    refine ⟨⟨s.W, b, e'⟩, ?_, rfl⟩
    rw [step_released s hlegal hrst, hsched, hturn]

/-- Settles O27: on the host's turn a pending read is recorded, and the block stays as it is. -/
theorem regReadReturnsTheWordAndChangesNothing : Obligations.RegReadReturnsTheWordAndChangesNothing := by
  unfold Obligations.RegReadReturnsTheWordAndChangesNothing
  intro s off as ts hW hrst hts hp
  rw [step_settled s hW hrst _ ts hts]
  exact hostTurn_read (s.withTurns ts) hp

/-- Settles O34: in RUN the poll keeps its place, in IDLE it is taken off. -/
theorem waitDonePollsUntilIdle : Obligations.WaitDonePollsUntilIdle := by
  unfold Obligations.WaitDonePollsUntilIdle
  intro s as ts hW hrst hts hp
  rw [step_settled s hW hrst _ ts hts]
  exact hostTurn_waitDone (s.withTurns ts) hp

section Issue
variable {s : State} {v : Word s.W} {as : List (HostAction s.W)}

/-- The host's turn on a pending CMD write runs the command of its word (41_control.md R140). -/
theorem hostTurn_instr (hrst : s.env.rst = false) (hp : s.env.pending = .write cmdOffset v :: as) (i : Instr)
    (hv : decode v = .instr i) : hostTurn s = exec i (s.withPending as) := by
  rw [hostTurn_write s hrst hp, regWrite_cmdOffset]
  exact issue_instr (s.withPending as) hv

/-- A word with a reserved OPCODE is the illegal command (30_encoding.md R86). -/
theorem hostTurn_reserved (hrst : s.env.rst = false) (hp : s.env.pending = .write cmdOffset v :: as) (c : Opcode)
    (hv : decode v = .reserved c) : hostTurn s = execReserved (s.withPending as) := by
  rw [hostTurn_write s hrst hp, regWrite_cmdOffset]
  exact issue_reserved (s.withPending as) hv

end Issue

/-- Settles O28: the turn is the host's, settled or by its being the only agent in IDLE, and issues the word. -/
theorem stepRunsTheDecodedCommand : Obligations.StepRunsTheDecodedCommand := by
  unfold Obligations.StepRunsTheDecodedCommand
  intro s v as hW hrst hp
  constructor
  · intro ts hts
    rw [step_settled s hW hrst _ ts hts]
    exact ⟨hostTurn_instr (s := s.withTurns ts) hrst hp, hostTurn_reserved (s := s.withTurns ts) hrst hp⟩
  · intro hts hidle
    rw [step_released s hW hrst, schedule_idle s hts hidle]
    exact ⟨hostTurn_instr hrst hp, hostTurn_reserved hrst hp⟩

/-- A table word has eight bits, so a block of legal width reads in it the OPCODE that the table decoder reads. -/
theorem decode_of_decodeTableWord {W w : Nat} {i : Instr} (hW : legalWidth W = true)
    (h : decodeTableWord 8 w = some i) : decode (BitVec.ofNat W (w % 2 ^ 8)) = .instr i := by
  have hlt : w % 2 ^ 8 < 2 ^ 8 := Nat.mod_lt _ (by decide)
  have hpow : 2 ^ 8 ≤ 2 ^ W := Nat.pow_le_pow_right (by decide) (legalWidth_iff.mp hW)
  have hreset : w % 2 ^ 8 % 2 ^ Config.resetWidth = w % 2 ^ 8 := Nat.mod_eq_of_lt (hlt.trans_le (by decide))
  have hsame : decode (BitVec.ofNat W (w % 2 ^ 8)) = decode (BitVec.ofNat Config.resetWidth (w % 2 ^ 8)) := by
    apply decode_congr
    apply BitVec.eq_of_toNat_eq
    rw [opcodeOf_toNat, opcodeOf_toNat, BitVec.toNat_ofNat, BitVec.toNat_ofNat, Nat.mod_eq_of_lt (hlt.trans_le hpow),
      hreset]
  rw [hsame]
  unfold decodeTableWord at h
  split at h
  next j hj => rw [hj, Option.some.inj h]
  next => cases h

/-- Settles O29: the placed word stands at the head of the host's actions, and the host has the turn. -/
theorem fetchWordIsRunNext : Obligations.FetchWordIsRunNext := by
  unfold Obligations.FetchWordIsRunNext
  intro s w i hW hw
  obtain ⟨hsettled, -⟩ := stepRunsTheDecodedCommand (s.withFetchWord 8 w) _ _ hW rfl rfl
  obtain ⟨hinstr, -⟩ := hsettled s.env.turns rfl
  exact hinstr i (decode_of_decodeTableWord hW hw)

/-- Settles O30: each settled turn is performed on the state with that turn taken off. -/
theorem stepTakesTheSettledTurn : Obligations.StepTakesTheSettledTurn := by
  unfold Obligations.StepTakesTheSettledTurn
  intro s ts hW hrst
  refine ⟨step_settled s hW hrst _ ts, ?_, ?_, ?_, ?_⟩
  · intro hts hidle
    rw [step_settled s hW hrst _ ts hts, perform, engineTurn, State.withTurns_blk, s.blk.engineStep_idle hidle]
  · intro hts hp
    rw [step_settled s hW hrst _ ts hts]
    exact hostTurn_nil (s.withTurns ts) hp
  · intro off v as hts hp
    rw [step_settled s hW hrst _ ts hts]
    exact hostTurn_write (s.withTurns ts) hrst hp
  · intro hts
    rw [step_settled s hW hrst _ ts hts]
    exact perform_release (s.withTurns ts) hrst

/-! ### A CMD write that races FINISH -/

theorem runFrom_two {s t u : State} (hst : step s = .next t) (htu : step t = .next u) : runFrom 2 s = .next u := by
  rw [runFrom_succ 1 hst, runFrom_succ 0 htu, runFrom_zero]

/-- Settles O36: the host's turn first drops the command, and FINISH keeps the OVR it set; the engine's turn first
brings the block to IDLE, where the command is accepted. -/
theorem bothOrdersOfAWriteAndFinish : Obligations.BothOrdersOfAWriteAndFinish := by
  unfold Obligations.BothOrdersOfAWriteAndFinish
  intro s v as ts hW hrst hrun hr1 hp hv
  constructor
  · have hhost : step (s.withTurns (.host :: .engine :: ts)) =
        .next (((s.withTurns (.engine :: ts)).withPending as).withBlk s.blk.drop) := by
      rw [step_settled (s.withTurns (.host :: .engine :: ts)) hW hrst _ _ rfl]
      exact (hostTurn_instr (s := s.withTurns (.engine :: ts)) hrst hp _ hv).trans (exec_run _ hrun nofun)
    have hengine := step_settled (((s.withTurns (.engine :: ts)).withPending as).withBlk s.blk.drop) hW hrst _ ts rfl
    refine ⟨_, runFrom_two hhost hengine, ?_⟩
    rw [engineTurn_blk, State.withTurns_blk, State.withBlk_blk, s.blk.drop.engineStep_finish hrun hr1]
    exact ⟨Block.finish_phase _, Block.finish_DONE _, Block.finish_OVR _⟩
  · have hengine : step (s.withTurns (.engine :: .host :: ts)) =
        .next ((s.withTurns (.host :: ts)).withBlk s.blk.finish) := by
      rw [step_settled (s.withTurns (.engine :: .host :: ts)) hW hrst _ _ rfl, ← s.blk.engineStep_finish hrun hr1]
      rfl
    have hhost : step ((s.withTurns (.host :: ts)).withBlk s.blk.finish) =
        .next (((s.withTurns ts).withPending as).withBlk (s.blk.finish.accept .egcd)) := by
      rw [step_settled ((s.withTurns (.host :: ts)).withBlk s.blk.finish) hW hrst _ _ rfl]
      exact (hostTurn_instr (s := (s.withTurns ts).withBlk s.blk.finish) hrst hp _ hv).trans
        (exec_egcd_idle _ s.blk.finish_phase)
    refine ⟨_, runFrom_two hengine hhost, ?_⟩
    rw [State.withBlk_blk, s.blk.finish.accept_start .egcd nofun]
    exact ⟨rfl, rfl, s.blk.finish_OVR⟩

end Sys2Proof.Machine
end

section
/-! PROOFS. The host assembly as register accesses (30_encoding.md R90, R91). -/

namespace Sys2Proof.Machine

/-- A pattern of at most `W` bits is the word that stands for it (00_scope.md R9). -/
theorem uval_word_hex {W p : Nat} (h : (Literal.hex p).wellFormed W = true) : uval ((Literal.hex p).word W) = p := by
  have hlt : p < 2 ^ W := of_decide_eq_true h
  rw [uval, Literal.word, BitVec.toNat_ofNat, Nat.mod_eq_of_lt hlt]

/-- The word of a command is the number of its OPCODE (30_encoding.md R85). -/
theorem encode_eq_ofNat (W : Nat) (i : Instr) : encode W i = BitVec.ofNat W (opcode i).toNat := by
  rw [encode, BitVec.ofNat_toNat]

/-- Settles O35: every line is its actions by definition; a pattern keeps its value because it fits. -/
theorem hostAssemblyEncodings : Obligations.HostAssemblyEncodings := by
  unfold Obligations.HostAssemblyEncodings
  refine ⟨?_, fun _ _ _ => rfl, ?_, fun _ _ => rfl, ?_, fun _ _ _ => ⟨rfl, rfl⟩, fun _ _ _ => ⟨rfl, rfl⟩⟩
  · exact ⟨rfl, rfl, rfl, rfl, rfl, rfl, rfl, rfl, rfl, fun _ => rfl⟩
  · exact fun W r p hp => ⟨(Literal.hex p).word W, uval_word_hex hp, rfl⟩
  · intro W
    have hcmd (i : Instr) : HostLine.actions W (.cmd i) = [.write 0x2 (BitVec.ofNat W (opcode i).toNat)] := by
      rw [← encode_eq_ofNat]
      rfl
    exact ⟨hcmd .nop, hcmd .egcd, hcmd .modinv, hcmd .clrsts, rfl⟩

end Sys2Proof.Machine
end

section
/-! PROOFS. The block of a running command as the engine sees it: what the host does to it in RUN, and that the engine's
steps do not depend on it (41_control.md R143; 70_reset_and_hazards.md R196). -/

namespace Sys2Proof.Machine

/-- The block with the registers replaced that the host can change while a command runs. -/
abbrev Block.withHostSide {W : Nat} (A B : Word W) (IE OVR : Bool) (b : Block W) : Block W :=
  { b with A := A, B := B, IE := IE, OVR := OVR }

/-- `c` is `b` up to the registers that the host can change while a command runs: A, B, IE and the overrun flag. -/
def Block.SameCommand {W : Nat} (b c : Block W) : Prop := ∃ A B IE OVR, c = b.withHostSide A B IE OVR

section Block
variable {W : Nat} {b c : Block W}

theorem Block.SameCommand.refl (b : Block W) : b.SameCommand b := ⟨b.A, b.B, b.IE, b.OVR, rfl⟩

theorem Block.SameCommand.trans {d : Block W} (hbc : b.SameCommand c) (hcd : c.SameCommand d) : b.SameCommand d := by
  obtain ⟨A, B, IE, OVR, rfl⟩ := hbc
  obtain ⟨A', B', IE', OVR', rfl⟩ := hcd
  exact ⟨A', B', IE', OVR', rfl⟩

theorem Block.SameCommand.phase (h : b.SameCommand c) : c.phase = b.phase := by
  obtain ⟨A, B, IE, OVR, rfl⟩ := h
  rfl

theorem Block.SameCommand.drop (b : Block W) : b.SameCommand b.drop := ⟨b.A, b.B, b.IE, true, rfl⟩

/-- FINISH reads none of the host's registers and not the overrun flag (40_euclid.md R103). -/
theorem Block.finish_withHostSide (A B : Word W) (IE OVR : Bool) (b : Block W) :
    (b.withHostSide A B IE OVR).finish = b.finish.withHostSide A B IE OVR := by
  rcases b.finish_cases with ⟨hop, hfin⟩ | ⟨hop, hg, hfin⟩ | ⟨hop, hg, hfin⟩ <;> rw [hfin]
  · exact Block.finish_of_egcd _ hop
  · exact Block.finish_of_inverse _ hop hg
  · exact Block.finish_of_noInverse _ hop hg

/-- What the host changes while a command runs does not change what the engine does next. -/
theorem Block.SameCommand.engineStep (h : b.SameCommand c) : b.engineStep.SameCommand c.engineStep := by
  obtain ⟨A, B, IE, OVR, rfl⟩ := h
  refine ⟨A, B, IE, OVR, ?_⟩
  rcases b.engineStep_cases with ⟨hidle, hstep⟩ | ⟨hrun, hr1, hstep⟩ | ⟨hrun, hr1, hstep⟩ <;> rw [hstep]
  · exact Block.engineStep_idle _ hidle
  · exact Block.engineStep_iter _ hrun hr1
  · exact ((b.withHostSide A B IE OVR).engineStep_finish hrun hr1).trans (b.finish_withHostSide A B IE OVR)

theorem Block.SameCommand.runsOn {a m : Int} (h : b.SameCommand c) (hb : b.RunsOn a m) : c.RunsOn a m := by
  obtain ⟨A, B, IE, OVR, rfl⟩ := h
  exact { hb with }

/-- In RUN every command but NOP only sets the overrun flag. -/
theorem Block.CommandEffect.sameCommand {c : Command} {b' : Block W} (h : b.CommandEffect c b')
    (hrun : b.phase = .run) : b.SameCommand b' := by
  cases h with
  | nop => exact .refl b
  | drop => exact .drop b
  | egcd hidle | modinv hidle | badModulus hidle | clrsts hidle | reserved hidle => exact nomatch hrun.symm.trans hidle

end Block

/-- In RUN a register write of the host leaves the command as it is (41_control.md R143; 70_reset_and_hazards.md
R196). -/
theorem regWrite_sameCommand (s : State) (hrun : s.blk.phase = .run) (off : Offset) (v : Word s.W) :
    ∃ b, regWrite s off v = .next (s.withBlk b) ∧ s.blk.SameCommand b := by
  rcases regWrite_cases s off v with ⟨-, hw⟩ | ⟨-, hw⟩ | ⟨-, hw⟩ | ⟨-, hw⟩ | ⟨-, hw⟩ <;> rw [hw]
  · exact ⟨_, rfl, v, s.blk.B, s.blk.IE, s.blk.OVR, rfl⟩
  · exact ⟨_, rfl, s.blk.A, v, s.blk.IE, s.blk.OVR, rfl⟩
  · obtain ⟨b, hissue, heffect⟩ := issue_effect s v
    exact ⟨b, hissue, heffect.sameCommand hrun⟩
  · exact ⟨_, rfl, s.blk.A, s.blk.B, v.getLsbD 0, s.blk.OVR, rfl⟩
  · exact ⟨s.blk, rfl, .refl s.blk⟩

end Sys2Proof.Machine
end

section
/-! PROOFS. The invariant of the machine: it holds at reset, and every step keeps it (40_euclid.md R102, R117;
10_state.md R23 to R26, R34). -/

namespace Sys2Proof.Machine

section Block
variable {W : Nat} {b b' : Block W}

/-- A change that writes no result keeps their ranges, as long as it leaves ERR = NONE where DONE = 0. -/
theorem Block.ResultsInRange.of_results_eq (h : b.ResultsInRange)
    (hresults : b'.G = b.G ∧ b'.X = b.X ∧ b'.Y = b.Y ∧ b'.R = b.R) (herr : b'.DONE = false → b'.ERR = .none) :
    b'.ResultsInRange := by
  obtain ⟨hG, hX, hY, hR⟩ := hresults
  exact {
    err := herr
    G := hG ▸ h.G
    X_lo := hX ▸ h.X_lo, X_hi := hX ▸ h.X_hi
    Y_lo := hY ▸ h.Y_lo, Y_hi := hY ▸ h.Y_hi
    R := hR ▸ h.R }

/-- No command leaves an error code beside DONE = 0 (10_state.md R34). -/
theorem Block.CommandEffect.err {c : Command} (h : b.CommandEffect c b') (herr : b.DONE = false → b.ERR = .none) :
    b'.DONE = false → b'.ERR = .none := by
  cases h with
  | nop | drop => exact herr
  | egcd | modinv | clrsts => exact fun _ => rfl
  | badModulus | reserved => exact nofun

/-- After a command that leaves the block in RUN, either the command before it still runs or a new one starts. -/
theorem Block.CommandEffect.runsOn {c : Command} (h : b.CommandEffect c b')
    (hruns : b.phase = .run → ∃ a m, b.RunsOn a m) (hrun : b'.phase = .run) : ∃ a m, b'.RunsOn a m := by
  cases h with
  | nop => exact hruns hrun
  | drop hphase =>
    obtain ⟨a, m, hb⟩ := hruns hphase
    exact ⟨a, m, (Block.SameCommand.drop b).runsOn hb⟩
  | egcd => exact ⟨_, _, b.accept_start .egcd nofun ▸ b.accept_runsOn .egcd nofun⟩
  | modinv _ hm => exact ⟨_, _, b.accept_start .modinv (fun _ => hm) ▸ b.accept_runsOn .modinv fun _ => hm⟩
  | badModulus | reserved => exact nomatch hrun
  | clrsts hidle => exact nomatch hidle.symm.trans hrun

/-- The inverse is below a modulus of `W − 1` bits (40_euclid.md R117). -/
theorem Block.RunsOn.uval_inverse_le {a m : Int} (h : b.RunsOn a m) (hW : legalWidth W = true) (hop : b.op = .modinv) :
    uval (bitsW W (fmod b.coeffA m)) ≤ 2 ^ (W - 1) - 2 := by
  have hval := h.uval_inverse hW hop
  have hlt := (fmod_range b.coeffA (h.modulus hop)).2
  have hm : m < 2 ^ (W - 1) := h.mreg ▸ (sval_range b.mreg).2
  have hsum : (uval (bitsW W (fmod b.coeffA m)) : Int) + 2 ≤ 2 ^ (W - 1) := by omega
  have hnat : uval (bitsW W (fmod b.coeffA m)) + 2 ≤ 2 ^ (W - 1) := by exact_mod_cast hsum
  omega

/-- FINISH of a command that runs on operands leaves the results in range (40_euclid.md R117). -/
theorem Block.RunsOn.finish_resultsInRange {a m : Int} (h : b.RunsOn a m) (hW : legalWidth W = true) (hr1 : b.r1 = 0)
    (hrange : b.ResultsInRange) : b.engineStep.ResultsInRange := by
  have hop : b.op = .egcd ∨ b.op = .modinv := by cases b.op <;> simp
  rcases hop with hop | hop
  · obtain ⟨-, -, hG, ⟨hXlo, hXhi⟩, ⟨hYlo, hYhi⟩⟩ := egcdFinishesWithGcdAndBezout W b a m hW h hop hr1
    have hfin := b.engineStep_finish h.phase hr1
    exact {
      err := fun hdone => nomatch (hfin ▸ b.finish_DONE).symm.trans hdone
      G := hG, X_lo := hXlo, X_hi := hXhi, Y_lo := hYlo, Y_hi := hYhi
      R := by rw [hfin, b.finish_R_of_egcd hop]; exact hrange.R }
  · rcases h.finish_modinv_cases hop hr1 with ⟨-, -, hfin⟩ | ⟨-, hfin⟩ <;> rw [hfin]
    · exact { hrange with err := nofun, R := h.uval_inverse_le hW hop }
    · exact { hrange with err := nofun }

end Block

section Change
variable {s : State} {b : Block s.W}

theorem State.BlockChange.resultsInRange (h : s.BlockChange b) (hs : s.Inv) : b.ResultsInRange := by
  have hrange := hs.results
  cases h with
  | finish hrun hr1 =>
    obtain ⟨a, m, hruns⟩ := hs.running hrun
    exact s.blk.engineStep_finish hrun hr1 ▸ hruns.finish_resultsInRange hs.width hr1 hrange
  | command _ heffect => exact hrange.of_results_eq heffect.results (heffect.err hrange.err)
  | none | writeA | writeB | writeIE | iter => exact { hrange with }

theorem State.BlockChange.runsOn (h : s.BlockChange b) (hs : s.Inv) (hrun : b.phase = .run) : ∃ a m, b.RunsOn a m := by
  cases h with
  | iter hphase hr1 =>
    obtain ⟨a, m, hruns⟩ := hs.running hphase
    exact ⟨a, m, hruns.iter hs.width hr1⟩
  | finish => exact nomatch s.blk.finish_phase.symm.trans hrun
  | command _ heffect => exact heffect.runsOn hs.running hrun
  | none | writeA | writeB | writeIE =>
    obtain ⟨a, m, hruns⟩ := hs.running hrun
    exact ⟨a, m, { hruns with }⟩

end Change

theorem Block.reset_resultsInRange (W : Nat) : (Block.reset W).ResultsInRange := by
  constructor <;> simp [Block.reset, uval]

/-- The invariant needs nothing but the block at reset and a legal width. -/
theorem inv_of_reset {W : Nat} (hW : legalWidth W = true) (e : Env W) : State.Inv ⟨W, Block.reset W, e⟩ where
  width := hW
  results := Block.reset_resultsInRange W
  running := nofun
  held := fun _ => Block.reset_atReset

/-- Settles O42: `State.reset` is the machine at reset, at a width that is legal. -/
theorem resetMeetsTheInvariant : Obligations.ResetMeetsTheInvariant := by
  unfold Obligations.ResetMeetsTheInvariant
  exact ⟨inv_of_reset (by decide) _, fun _ hW => inv_of_reset hW _⟩

/-- Settles O43: with `rst` asserted before or after, a step leaves the block at reset; otherwise it makes one of the
changes of `State.BlockChange`, and each of them keeps the ranges and the relations. -/
theorem stepKeepsTheInvariant : Obligations.StepKeepsTheInvariant := by
  unfold Obligations.StepKeepsTheInvariant
  intro s t hs hstep
  cases hrst : s.env.rst with
  | true =>
    obtain ⟨e, hnext, -⟩ := step_asserted_next s hs.width hrst
    obtain rfl := Host.Outcome.next.inj (hnext.symm.trans hstep)
    exact inv_of_reset hs.width e
  | false =>
    rcases step_blockChange_or_reset hstep hrst with ⟨b, e, rfl, he, hchange⟩ | ⟨e, rfl, -⟩
    · exact {
        width := hs.width
        results := hchange.resultsInRange hs
        running := hchange.runsOn hs
        held := fun h => nomatch he.symm.trans h }
    · exact inv_of_reset hs.width e

end Sys2Proof.Machine
end

section
/-! PROOFS. The engine alone: the steps of a running command up to its FINISH (40_euclid.md R102, R103, R105). -/

namespace Sys2Proof.Machine

/-- The engine is `n` ITER steps away from FINISH (40_euclid.md R105). -/
def Block.FinishesAfter {W : Nat} : Nat → Block W → Prop
  | 0, b => b.phase = .run ∧ b.r1 = 0
  | n + 1, b => b.phase = .run ∧ b.r1 ≠ 0 ∧ b.iter.FinishesAfter n

/-- `c` is `b` up to the working registers: all that ITER writes (40_euclid.md R102). -/
def Block.SameButWork {W : Nat} (b c : Block W) : Prop :=
  ∃ r0 r1 x0 x1 y0 y1, c = { b with r0 := r0, r1 := r1, x0 := x0, x1 := x1, y0 := y0, y1 := y1 }

section Block
variable {W : Nat} {b : Block W} {n : Nat}

theorem Block.FinishesAfter.phase (h : b.FinishesAfter n) : b.phase = .run := by
  cases n with
  | zero => exact h.1
  | succ n => exact h.1

theorem Block.FinishesAfter.r1_eq_zero (h : b.FinishesAfter 0) : b.r1 = 0 := h.2

theorem Block.FinishesAfter.r1_ne_zero (h : b.FinishesAfter (n + 1)) : b.r1 ≠ 0 := h.2.1

theorem Block.FinishesAfter.engineStep_eq_iter (h : b.FinishesAfter (n + 1)) : b.engineStep = b.iter :=
  b.engineStep_iter h.phase h.r1_ne_zero

theorem Block.FinishesAfter.engineStep_eq_finish (h : b.FinishesAfter 0) : b.engineStep = b.finish :=
  b.engineStep_finish h.phase h.r1_eq_zero

theorem Block.FinishesAfter.engineStep (h : b.FinishesAfter (n + 1)) : b.engineStep.FinishesAfter n :=
  h.engineStep_eq_iter ▸ h.2.2

theorem Block.FinishesAfter.iterate {k : Nat} (h : b.FinishesAfter (k + n)) :
    ((Block.engineStep)^[n] b).FinishesAfter k := by
  induction n generalizing b with
  | zero => exact h
  | succ n ih => exact ih h.engineStep

theorem Block.FinishesAfter.zero_add (h : b.FinishesAfter n) : b.FinishesAfter (0 + n) := (Nat.zero_add n).symm ▸ h

/-- At FINISH after `n` steps. -/
theorem Block.FinishesAfter.iterate_self (h : b.FinishesAfter n) : ((Block.engineStep)^[n] b).FinishesAfter 0 :=
  h.zero_add.iterate

/-- One more step after those is FINISH. -/
theorem Block.FinishesAfter.iterate_succ (h : b.FinishesAfter n) :
    (Block.engineStep)^[n + 1] b = ((Block.engineStep)^[n] b).finish := by
  rw [Function.iterate_succ_apply', h.iterate_self.engineStep_eq_finish]

/-- Every running command gets to FINISH: each ITER makes `|r1|` smaller (40_euclid.md R105). -/
theorem Block.exists_finishesAfter (hrun : b.phase = .run) : ∃ n, n ≤ b.r1.natAbs ∧ b.FinishesAfter n := by
  induction hsize : b.r1.natAbs using Nat.strong_induction_on generalizing b with
  | h size ih =>
    by_cases hr1 : b.r1 = 0
    · exact ⟨0, Nat.zero_le _, hrun, hr1⟩
    · have hrem := iter_remainder b.r0 b.r1 hr1
      have hlt : b.iter.r1.natAbs < size := by
        rw [Block.iter_r1]
        unfold absVal at hrem
        omega
      obtain ⟨n, hn, hfin⟩ := ih _ hlt (b := b.iter) hrun rfl
      exact ⟨n + 1, by omega, hrun, hr1, hfin⟩

theorem Block.SameButWork.refl (b : Block W) : b.SameButWork b := ⟨_, _, _, _, _, _, rfl⟩

theorem Block.SameButWork.trans {c d : Block W} (hbc : b.SameButWork c) (hcd : c.SameButWork d) : b.SameButWork d := by
  obtain ⟨_, _, _, _, _, _, rfl⟩ := hbc
  obtain ⟨_, _, _, _, _, _, rfl⟩ := hcd
  exact ⟨_, _, _, _, _, _, rfl⟩

theorem Block.SameButWork.iter (b : Block W) : b.SameButWork b.iter := ⟨_, _, _, _, _, _, rfl⟩

/-- Up to FINISH the engine writes the working registers alone. -/
theorem Block.FinishesAfter.sameButWork {k : Nat} (h : b.FinishesAfter (k + n)) :
    b.SameButWork ((Block.engineStep)^[n] b) := by
  induction n generalizing b with
  | zero => exact .refl b
  | succ n ih => exact (h.engineStep_eq_iter ▸ Block.SameButWork.iter b).trans (ih h.engineStep)

/-- Up to FINISH the relations of the working registers hold (40_euclid.md R102). -/
theorem Block.FinishesAfter.runsOn {a m : Int} {k : Nat} (h : b.FinishesAfter (k + n)) (hW : legalWidth W = true)
    (hruns : b.RunsOn a m) : ((Block.engineStep)^[n] b).RunsOn a m := by
  induction n generalizing b with
  | zero => exact hruns
  | succ n ih => exact ih h.engineStep (h.engineStep_eq_iter ▸ hruns.iter hW h.r1_ne_zero)

/-- After FINISH the engine rests (10_state.md R38). -/
theorem Block.engineStep_iterate_idle (hidle : b.phase = .idle) (k : Nat) : (Block.engineStep)^[k] b = b :=
  Function.iterate_fixed (b.engineStep_idle hidle) k

end Block

theorem Block.accept_r1 {W : Nat} (b : Block W) (op : Op) (hm : op = .modinv → 1 ≤ sval b.B) :
    (b.accept op).r1.natAbs = (sval b.B).natAbs := by
  rw [b.accept_start op hm, Block.start_r1, absVal, Int.natAbs_natCast]

/-- Settles O17: r1 starts as `|sval(B)|`, and each ITER leaves a non-negative remainder below it. -/
theorem atMostAbsBIterations : Obligations.AtMostAbsBIterations := by
  unfold Obligations.AtMostAbsBIterations
  intro W b op hW hm
  have hruns := b.accept_runsOn op hm
  obtain ⟨n, hn, hfin⟩ := Block.exists_finishesAfter hruns.phase
  rw [b.accept_r1 op hm] at hn
  refine ⟨n, hn, fun hzero => by simpa [hzero] using hn, ?_, ?_, hfin.iterate_self.r1_eq_zero, ?_⟩
  · intro j hj
    obtain ⟨k, rfl⟩ := Nat.exists_eq_add_of_le' hj
    exact hfin.iterate.phase
  · intro j hj
    obtain ⟨k, rfl⟩ : ∃ k, n = k + 1 + j := ⟨n - j - 1, by omega⟩
    have hrest := hfin.iterate
    have hrunsj := hfin.runsOn hW hruns
    have hne := hrest.r1_ne_zero
    have hnonneg := hrunsj.r1_nonneg
    rw [Function.iterate_succ_apply', hrest.engineStep_eq_iter]
    exact ⟨by omega, hrunsj.remainder_lt hne⟩
  · rw [hfin.iterate_succ, Block.finish_phase]

end Sys2Proof.Machine
end

section
/-! PROOFS. A running command reaches FINISH under every interleaving (70_reset_and_hazards.md R199; 40_euclid.md R105).

Between two engine steps there are finitely many other turns: those settled, or those of the burst that is drawn next.
`State.engineWait` counts them, and none of them touches the command. -/

namespace Sys2Proof.Machine

/-- How many turns come before the next one of the engine: settled ones, and if they hold none of the engine, then
those of the burst drawn as the `tick`-th (log 5). -/
def turnsUntilEngine (tick : Nat) : List Turn → Nat
  | [] => Config.hostBurst tick
  | .engine :: _ => 0
  | .host :: ts => turnsUntilEngine tick ts + 1
  | .rst _ :: ts => turnsUntilEngine tick ts + 1

def State.engineWait (s : State) : Nat := turnsUntilEngine s.env.tick s.env.turns

theorem turnsUntilEngine_burst (tick n : Nat) : turnsUntilEngine tick (List.replicate n .host ++ [.engine]) = n := by
  induction n with
  | zero => rfl
  | succ n ih => rw [List.replicate_succ, List.cons_append, turnsUntilEngine, ih]

theorem turnsUntilEngine_lt_cons (tick : Nat) {u : Turn} (ts : List Turn) (hu : u ≠ .engine) :
    turnsUntilEngine tick ts < turnsUntilEngine tick (u :: ts) := by
  cases u with
  | engine => exact absurd rfl hu
  | host | rst => exact Nat.lt_succ_self _

/-- `s` carries the command of `b`, whatever the host has changed since, and no reset reaches it. -/
def State.Carries {W : Nat} (s : State) (b : Block W) : Prop :=
  ∃ (c : Block W) (e : Env W), s = ⟨W, c, e⟩ ∧ b.SameCommand c ∧ s.NoReset

section State
variable (s : State)

theorem State.carries_self (h : s.NoReset) : s.Carries s.blk := ⟨s.blk, s.env, rfl, .refl s.blk, h⟩

/-- The next turn of a running block that no reset reaches: it asserts no reset, and if it is not the engine's then
the wait for the engine's is shorter after it. -/
theorem schedule_run (hrun : s.blk.phase = .run) (h : s.NoReset) :
    ∃ e : Env s.W, s.schedule.2 = ⟨s.W, s.blk, e⟩ ∧ State.NoReset ⟨s.W, s.blk, e⟩ ∧ s.schedule.1 ≠ .rst true ∧
      (s.schedule.1 ≠ .engine → turnsUntilEngine e.tick e.turns < s.engineWait) := by
  obtain ⟨hrst, hturns⟩ := h
  cases hts : s.env.turns with
  | cons u ts =>
    rw [hts, List.mem_cons, not_or] at hturns
    rw [schedule_settled s u ts hts]
    refine ⟨_, rfl, ⟨hrst, hturns.2⟩, Ne.symm hturns.1, fun hu => ?_⟩
    rw [State.engineWait, hts]
    exact turnsUntilEngine_lt_cons _ ts hu
  | nil =>
    by_cases hp : s.env.pending = []
    · rw [schedule_run_nil s hts hrun hp]
      exact ⟨_, rfl, ⟨hrst, hturns⟩, nofun, fun hu => absurd rfl hu⟩
    · rw [schedule_run_burst s hts hrun hp]
      have hwait : s.engineWait = Config.hostBurst s.env.tick := by rw [State.engineWait, hts]; rfl
      rw [hwait]
      cases hn : Config.hostBurst s.env.tick with
      | zero =>
        rw [schedule_settled s.withBurst .engine [] (by simp [hn])]
        exact ⟨_, rfl, ⟨hrst, List.not_mem_nil⟩, nofun, fun hu => absurd rfl hu⟩
      | succ n =>
        have hburst : s.withBurst.env.turns = .host :: (List.replicate n .host ++ [.engine]) := by
          simp [hn, List.replicate_succ]
        rw [schedule_settled s.withBurst _ _ hburst]
        refine ⟨_, rfl, ⟨hrst, by simp⟩, nofun, fun _ => ?_⟩
        exact (turnsUntilEngine_burst _ n).trans_lt (Nat.lt_succ_self n)

/-- The host's turn in RUN leaves the command, the reset input and the order of the agents as they are. -/
theorem hostTurn_run (hrun : s.blk.phase = .run) (hrst : s.env.rst = false) :
    ∃ (b : Block s.W) (e : Env s.W), hostTurn s = .next ⟨s.W, b, e⟩ ∧ s.blk.SameCommand b ∧
      e.rst = s.env.rst ∧ e.turns = s.env.turns ∧ e.tick = s.env.tick := by
  cases hp : s.env.pending with
  | nil => exact ⟨_, _, hostTurn_nil s hp, .refl _, rfl, rfl, rfl⟩
  | cons a as =>
    cases a with
    | read off => exact ⟨_, _, hostTurn_read (as := as) s hp, .refl _, rfl, rfl, rfl⟩
    | waitDone => exact ⟨_, _, hostTurn_waitDone (as := as) s hp, .refl _, rfl, rfl, rfl⟩
    | write off v =>
      obtain ⟨b, hwrite, hsame⟩ := regWrite_sameCommand (s.withPending as) hrun off v
      exact ⟨b, _, (hostTurn_write s hrst hp).trans hwrite, hsame, rfl, rfl, rfl⟩

/-- A turn that asserts no reset, in RUN: the engine's step, or one that leaves the command as it is. -/
theorem perform_run (hrun : s.blk.phase = .run) (hrst : s.env.rst = false) {u : Turn} (hu : u ≠ .rst true) :
    ∃ (b : Block s.W) (e : Env s.W), perform u s = .next ⟨s.W, b, e⟩ ∧
      e.rst = s.env.rst ∧ e.turns = s.env.turns ∧ e.tick = s.env.tick ∧
      ((u = .engine ∧ b = s.blk.engineStep) ∨ (u ≠ .engine ∧ s.blk.SameCommand b)) := by
  cases u with
  | host =>
    obtain ⟨b, e, hturn, hsame, he, hturns, htick⟩ := hostTurn_run s hrun hrst
    exact ⟨b, e, hturn, he, hturns, htick, .inr ⟨nofun, hsame⟩⟩
  | engine => exact ⟨_, _, rfl, rfl, rfl, rfl, .inl ⟨rfl, rfl⟩⟩
  | rst level =>
    cases level with
    | false => exact ⟨_, _, perform_release s hrst, rfl, rfl, rfl, .inr ⟨nofun, .refl _⟩⟩
    | true => exact absurd rfl hu

end State

section Command
variable {W : Nat} {b : Block W} {s : State} {P : State → Prop}

theorem State.Carries.phase (h : s.Carries b) : s.blk.phase = b.phase := by
  obtain ⟨c, e, rfl, hsame, -⟩ := h
  exact hsame.phase

/-- A step of a running command is the engine's step, or leaves the command and shortens the wait for it. -/
theorem State.Carries.step (h : s.Carries b) (hW : legalWidth W = true) (hrun : b.phase = .run) :
    ∃ t, Machine.step s = .next t ∧ (t.Carries b.engineStep ∨ (t.Carries b ∧ t.engineWait < s.engineWait)) := by
  obtain ⟨c, e, rfl, hsame, hfree⟩ := h
  have hc : c.phase = .run := hsame.phase.trans hrun
  obtain ⟨e', hsched, ⟨hrst, hturns⟩, hu, hwait⟩ := schedule_run ⟨W, c, e⟩ hc hfree
  obtain ⟨d, e'', hturn, hrst', hturns', htick', hcases⟩ := perform_run ⟨W, c, e'⟩ hc hrst hu
  have hfree' : State.NoReset ⟨W, d, e''⟩ := ⟨hrst'.trans hrst, fun hmem => hturns (hturns' ▸ hmem)⟩
  refine ⟨⟨W, d, e''⟩, ?_, ?_⟩
  · rw [step_released _ hW hfree.1, hsched, hturn]
  · rcases hcases with ⟨-, rfl⟩ | ⟨hne, hd⟩
    · exact .inl ⟨_, e'', rfl, hsame.engineStep, hfree'⟩
    · refine .inr ⟨⟨d, e'', rfl, hsame.trans hd, hfree'⟩, ?_⟩
      rw [State.engineWait, htick', hturns']
      exact hwait hne

/-- The engine gets its turn: what holds of a command from its next engine step on holds of it now. -/
theorem State.Carries.finishesWith_of_engineStep (h : s.Carries b) (hW : legalWidth W = true) (hrun : b.phase = .run)
    (hnext : ∀ u t : State, u.blk.phase = .run → Machine.step u = .next t → t.Carries b.engineStep → u.FinishesWith P) :
    s.FinishesWith P := by
  induction hwait : s.engineWait using Nat.strong_induction_on generalizing s with
  | h wait ih =>
    have hs : s.blk.phase = .run := h.phase.trans hrun
    obtain ⟨t, hstep, hengine | ⟨ht, hlt⟩⟩ := h.step hW hrun
    · exact hnext s t hs hstep hengine
    · exact .of_step hs hstep (ih _ (hwait ▸ hlt) ht rfl)

/-- A command that is `n` ITER steps from FINISH reaches it, in a state that carries what the engine alone would
leave. -/
theorem State.Carries.finishesWith {n : Nat} (h : s.Carries b) (hW : legalWidth W = true) (hfin : b.FinishesAfter n) :
    s.FinishesWith (·.Carries ((Block.engineStep)^[n + 1] b)) := by
  induction n generalizing b s with
  | zero =>
    refine h.finishesWith_of_engineStep hW hfin.phase fun u t hu hstep ht => ?_
    have hidle : t.blk.phase = .idle := by rw [ht.phase, hfin.engineStep_eq_finish, Block.finish_phase]
    refine .of_last hu hstep hidle ?_ ht
    obtain ⟨c, e, rfl, ⟨A, B, IE, OVR, rfl⟩, -⟩ := ht
    exact (congrArg Block.DONE hfin.engineStep_eq_finish).trans b.finish_DONE
  | succ n ih =>
    exact h.finishesWith_of_engineStep hW hfin.phase fun u t hu hstep ht => .of_step hu hstep (ih ht hfin.engineStep)

/-- A weaker statement about the completed state. -/
theorem State.FinishesWith.mono {Q : State → Prop} (h : s.FinishesWith P) (hPQ : ∀ t, P t → Q t) :
    s.FinishesWith Q := by
  obtain ⟨k, hk, t, ht, hidle, hdone, hP⟩ := h
  exact ⟨k, hk, t, ht, hidle, hdone, hPQ t hP⟩

end Command

/-- Settles O44: the engine alone would reach FINISH, and no turn but the engine's touches the command. -/
theorem runningCommandReachesFinish : Obligations.RunningCommandReachesFinish := by
  unfold Obligations.RunningCommandReachesFinish
  intro s hW hfree hrun
  obtain ⟨n, -, hfin⟩ := Block.exists_finishesAfter hrun
  exact ((s.carries_self hfree).finishesWith hW hfin).mono fun _ _ => trivial

end Sys2Proof.Machine
end

section
/-! PROOFS. The two functions of the source that the engine realises: what `extended_gcd` and `mod_inverse` return,
and their corner cases (40_euclid.md R105, R107, R108, R113, R114). -/

namespace Sys2Proof.Machine

/-! ### The loop of the extended Euclid -/

section Loop
variable {f : Nat} {r0 r1 x0 x1 y0 y1 : Int}

theorem euclidLoop_zero : euclidLoop f r0 0 x0 x1 y0 y1 = (r0, x0, y0) := by
  cases f <;> rfl

theorem euclidLoop_succ (hr1 : r1 ≠ 0) :
    euclidLoop (f + 1) r0 r1 x0 x1 y0 y1 =
      euclidLoop f r1 (r0 - r0 / r1 * r1) x1 (x0 - r0 / r1 * x1) y1 (y0 - r0 / r1 * y1) := if_neg hr1

/-- The remainder of a division step is smaller in size, which is why `|r1|` steps are enough (40_euclid.md R105). -/
theorem natAbs_remainder_lt (r0 : Int) (hr1 : r1 ≠ 0) : (r0 - r0 / r1 * r1).natAbs < r1.natAbs := by
  obtain ⟨hnonneg, hlt⟩ := iter_remainder r0 r1 hr1
  unfold absVal at hlt
  omega

/-- Fuel beyond `|r1|` does not matter. -/
theorem euclidLoop_eq_of_natAbs_le {g : Nat} (hf : r1.natAbs ≤ f) (hg : r1.natAbs ≤ g) :
    euclidLoop f r0 r1 x0 x1 y0 y1 = euclidLoop g r0 r1 x0 x1 y0 y1 := by
  induction f generalizing g r0 r1 x0 x1 y0 y1 with
  | zero =>
    obtain rfl : r1 = 0 := by omega
    rw [euclidLoop_zero, euclidLoop_zero]
  | succ f ih =>
    by_cases hr1 : r1 = 0
    · rw [hr1, euclidLoop_zero, euclidLoop_zero]
    · have hlt := natAbs_remainder_lt r0 hr1
      obtain ⟨g, rfl⟩ : ∃ k, g = k + 1 := ⟨g - 1, by omega⟩
      rw [euclidLoop_succ hr1, euclidLoop_succ hr1]
      exact ih (by omega) (by omega)

/-- The two columns of coefficients are worked alike, so exchanging them exchanges the results. -/
theorem euclidLoop_swap :
    euclidLoop f r0 r1 y0 y1 x0 x1 =
      ((euclidLoop f r0 r1 x0 x1 y0 y1).1, (euclidLoop f r0 r1 x0 x1 y0 y1).2.2,
        (euclidLoop f r0 r1 x0 x1 y0 y1).2.1) := by
  induction f generalizing r0 r1 x0 x1 y0 y1 with
  | zero => rfl
  | succ f ih =>
    by_cases hr1 : r1 = 0
    · rw [hr1, euclidLoop_zero, euclidLoop_zero]
    · rw [euclidLoop_succ hr1, euclidLoop_succ hr1, ih]

/-- A linear relation of the remainders to `p` and `q` is kept by every step (40_euclid.md R102). -/
theorem euclidLoop_bezout {p q : Int} (h0 : r0 = p * x0 + q * y0) (h1 : r1 = p * x1 + q * y1) :
    (euclidLoop f r0 r1 x0 x1 y0 y1).1 =
      p * (euclidLoop f r0 r1 x0 x1 y0 y1).2.1 + q * (euclidLoop f r0 r1 x0 x1 y0 y1).2.2 := by
  induction f generalizing r0 r1 x0 x1 y0 y1 with
  | zero => exact h0
  | succ f ih =>
    by_cases hr1 : r1 = 0
    · rw [hr1, euclidLoop_zero]
      exact h0
    · rw [euclidLoop_succ hr1]
      exact ih h1 (by linear_combination h0 - r0 / r1 * h1)

/-- The last remainder is the greatest common divisor of the first two (40_euclid.md R102). -/
theorem euclidLoop_gcd (hf : r1.natAbs ≤ f) (h0 : 0 ≤ r0) (h1 : 0 ≤ r1) :
    (euclidLoop f r0 r1 x0 x1 y0 y1).1 = Int.gcd r0 r1 := by
  induction f generalizing r0 r1 x0 x1 y0 y1 with
  | zero =>
    obtain rfl : r1 = 0 := by omega
    rw [euclidLoop_zero, Int.gcd_zero_right, Int.natAbs_of_nonneg h0]
  | succ f ih =>
    by_cases hr1 : r1 = 0
    · rw [hr1, euclidLoop_zero, Int.gcd_zero_right, Int.natAbs_of_nonneg h0]
    · have hlt := natAbs_remainder_lt r0 hr1
      rw [euclidLoop_succ hr1, ih (by omega) h1 (iter_remainder r0 r1 hr1).1,
        Int.gcd_sub_mul_right_right, Int.gcd_comm]

end Loop

/-! ### extended_gcd -/

section ExtendedGcd
variable (a b : Int)

/-- `extended_gcd` is the loop on the sizes of the operands, then the sign step. -/
theorem extendedGcd_of_loop {a b g x y : Int}
    (h : euclidLoop b.natAbs (absVal a) (absVal b) 1 0 0 1 = (g, x, y)) :
    extendedGcd a b = (g, signFix (decide (a < 0)) x, signFix (decide (b < 0)) y) := by
  unfold extendedGcd
  rw [h]

theorem absVal_eq_zero {n : Int} : absVal n = 0 ↔ n = 0 := by unfold absVal; omega

theorem natAbs_absVal (n : Int) : (absVal n).natAbs = n.natAbs := Int.natAbs_natCast _

theorem signFix_zero (c : Bool) : signFix c 0 = 0 := by cases c <;> rfl

theorem signFix_one (n : Int) : signFix (decide (n < 0)) 1 = if n < 0 then -1 else 1 := by
  unfold signFix
  simp only [decide_eq_true_eq]

/-- The first result is the greatest common divisor (40_euclid.md R107). -/
theorem extendedGcd_gcd : (extendedGcd a b).1 = Int.gcd a b := by
  have hloop := euclidLoop_gcd (x0 := 1) (x1 := 0) (y0 := 0) (y1 := 1) (natAbs_absVal b).le (absVal_nonneg a)
    (absVal_nonneg b)
  rw [extendedGcd_of_loop rfl, hloop, Int.gcd, Int.gcd, natAbs_absVal, natAbs_absVal]

/-- The other two are Bezout coefficients (40_euclid.md R107). -/
theorem extendedGcd_bezout : a * (extendedGcd a b).2.1 + b * (extendedGcd a b).2.2 = (extendedGcd a b).1 := by
  have h0 : absVal a = absVal a * 1 + absVal b * 0 := by ring
  have h1 : absVal b = absVal a * 0 + absVal b * 1 := by ring
  rw [extendedGcd_of_loop rfl, mul_signFix, mul_signFix, ← euclidLoop_bezout h0 h1]

/-- With `b = 0` no step is taken. -/
theorem extendedGcd_zero_right : extendedGcd a 0 = (absVal a, if a < 0 then -1 else 1, 0) := by
  rw [extendedGcd_of_loop euclidLoop_zero, signFix_zero, signFix_one]

/-- When `|b|` divides `|a|`, the one step leaves the remainder 0, so that the coefficients are 0 and 1. -/
theorem extendedGcd_of_dvd {a b : Int} (hb : b ≠ 0) (hdvd : absVal b ∣ absVal a) :
    extendedGcd a b = (absVal b, 0, if b < 0 then -1 else 1) := by
  have hloop : euclidLoop b.natAbs (absVal a) (absVal b) 1 0 0 1 = (absVal b, 0, 1) := by
    obtain ⟨f, hf⟩ : ∃ f, b.natAbs = f + 1 := ⟨b.natAbs - 1, by omega⟩
    have hsize : absVal b ≠ 0 := mt absVal_eq_zero.mp hb
    rw [hf, euclidLoop_succ hsize, Int.ediv_mul_cancel hdvd, sub_self, euclidLoop_zero]
  rw [extendedGcd_of_loop hloop, signFix_zero, signFix_one]

/-- When `|a| < |b|` the first step only exchanges the operands. -/
theorem extendedGcd_swap {a b : Int} (hlt : absVal a < absVal b) :
    extendedGcd a b = ((extendedGcd b a).1, (extendedGcd b a).2.2, (extendedGcd b a).2.1) := by
  have hb : absVal b ≠ 0 := by have := absVal_nonneg a; omega
  have hquot : absVal a / absVal b = 0 := Int.ediv_eq_zero_of_lt (absVal_nonneg a) hlt
  obtain ⟨f, hf⟩ : ∃ f, b.natAbs = f + 1 := ⟨b.natAbs - 1, by unfold absVal at hb; omega⟩
  have hfuel : (absVal a).natAbs ≤ f := by unfold absVal at hlt ⊢; omega
  have hloop : euclidLoop b.natAbs (absVal a) (absVal b) 1 0 0 1 =
      euclidLoop a.natAbs (absVal b) (absVal a) 0 1 1 0 := by
    rw [hf, euclidLoop_succ hb, hquot]
    simpa using euclidLoop_eq_of_natAbs_le hfuel (natAbs_absVal a).le
  rw [extendedGcd_of_loop (hloop.trans euclidLoop_swap), extendedGcd_of_loop (a := b) rfl]

end ExtendedGcd

/-- Settles O47: no step, one step, or the exchange of the operands. -/
theorem extendedGcdCornerCases : Obligations.ExtendedGcdCornerCases := by
  unfold Obligations.ExtendedGcdCornerCases
  refine ⟨extendedGcd_zero_right 0, fun a _ => extendedGcd_zero_right a, fun b hb => ?_, fun a b hab hb => ?_,
    fun a b => extendedGcd_swap⟩
  · exact extendedGcd_of_dvd hb (dvd_zero _)
  · rw [hab]
    exact extendedGcd_of_dvd hb (hab ▸ dvd_rfl)

/-! ### mod_inverse -/

section ModInverse
variable {a m : Int}

theorem modInverse_of_gcd_eq_one (h : Int.gcd a m = 1) : modInverse a m = some (fmod (extendedGcd a m).2.1 m) :=
  if_pos (by rw [extendedGcd_gcd, h]; rfl)

theorem modInverse_of_gcd_ne_one (h : Int.gcd a m ≠ 1) : modInverse a m = none :=
  if_neg (by rw [extendedGcd_gcd]; exact_mod_cast h)

theorem extendedGcd_bezout_one (hgcd : Int.gcd a m = 1) :
    a * (extendedGcd a m).2.1 + m * (extendedGcd a m).2.2 = 1 := by
  rw [extendedGcd_bezout, extendedGcd_gcd, hgcd]
  rfl

/-- `mod_inverse` is the one inverse in `[0, m)` (40_euclid.md R113). -/
theorem modInverse_eq_some {r : Int} (hgcd : Int.gcd a m = 1) (h0 : 0 ≤ r) (hlt : r < m)
    (hr : fmod (a * r) m = fmod 1 m) : modInverse a m = some r := by
  rw [modInverse_of_gcd_eq_one hgcd, ← eq_fmod_coeff_of_fmod_mul (extendedGcd_bezout_one hgcd) h0 hlt hr]

/-- Operands with the same remainder have the same inverses, or none. -/
theorem modInverse_fmod (hm : 1 ≤ m) : modInverse (fmod a m) m = modInverse a m := by
  have hgcd : Int.gcd (fmod a m) m = Int.gcd a m := Int.gcd_emod a m
  by_cases hg : Int.gcd a m = 1
  · obtain ⟨h0, hlt⟩ := fmod_range (extendedGcd a m).2.1 hm
    rw [modInverse_of_gcd_eq_one hg]
    refine modInverse_eq_some (hgcd.trans hg) h0 hlt ?_
    exact ((Int.mod_modEq a m).mul_right _).trans (fmod_mul_fmod_coeff (extendedGcd_bezout_one hg))
  · rw [modInverse_of_gcd_ne_one hg, modInverse_of_gcd_ne_one (hgcd ▸ hg)]

end ModInverse

/-- Settles O48: modulo 1 the inverse is 0, a multiple of `m` has `m` as its common divisor with `m`, and the inverse
depends on the remainder of the operand alone. -/
theorem modInverseCornerCases : Obligations.ModInverseCornerCases := by
  unfold Obligations.ModInverseCornerCases
  refine ⟨fun a => ?_, fun a m hm ha => ?_, fun a m hm => (modInverse_fmod hm).symm⟩
  · exact modInverse_eq_some (Int.gcd_one_right a) le_rfl one_pos (by simp [fmod])
  · have hgcd : (Int.gcd a m : Int) = m := (Int.gcd_eq_right_iff_dvd (by omega)).mpr (Int.dvd_of_emod_eq_zero ha)
    exact modInverse_of_gcd_ne_one (by omega)

end Sys2Proof.Machine
end

section
/-! PROOFS. The engine realises the two functions of the source, under every interleaving (40_euclid.md R100 to R113;
70_reset_and_hazards.md R199). -/

namespace Sys2Proof.Machine

/-! ### The engine and the loop -/

/-- The engine's ITER steps are those of the loop: at FINISH they hold the same remainder and coefficients. -/
theorem Block.FinishesAfter.euclidLoop_eq {W n f : Nat} {b : Block W} (h : b.FinishesAfter n) (hf : n ≤ f) :
    euclidLoop f b.r0 b.r1 b.x0 b.x1 b.y0 b.y1 =
      (((Block.engineStep)^[n] b).r0, ((Block.engineStep)^[n] b).x0, ((Block.engineStep)^[n] b).y0) := by
  induction n generalizing b f with
  | zero => rw [h.r1_eq_zero, euclidLoop_zero]; rfl
  | succ n ih =>
    obtain ⟨f, rfl⟩ : ∃ k, f = k + 1 := ⟨f - 1, by omega⟩
    have hrest := ih h.engineStep (f := f) (by omega)
    rw [euclidLoop_succ h.r1_ne_zero, Function.iterate_succ_apply, ← hrest, h.engineStep_eq_iter]
    rfl

/-- What a command holds when FINISH is enabled: it has run on its operands, and its last remainder and sign-corrected
coefficients are the values of `extended_gcd`. -/
structure Block.HoldsGcd {W : Nat} (b : Block W) (op : Op) (c : Block W) : Prop where
  started : (b.accept op).SameButWork c
  runsOn : c.RunsOn (sval b.A) (sval b.B)
  r1 : c.r1 = 0
  op : c.op = op
  gcd : extendedGcd (sval b.A) (sval b.B) = (c.r0, c.coeffA, c.coeffB)

section Block
variable {W : Nat} {b : Block W} {o : Op}

theorem Block.SameButWork.op {c : Block W} (h : b.SameButWork c) : c.op = b.op := by
  obtain ⟨_, _, _, _, _, _, rfl⟩ := h
  rfl

theorem Block.SameButWork.results {c : Block W} (h : b.SameButWork c) :
    c.G = b.G ∧ c.X = b.X ∧ c.Y = b.Y ∧ c.R = b.R := by
  obtain ⟨_, _, _, _, _, _, rfl⟩ := h
  exact ⟨rfl, rfl, rfl, rfl⟩

theorem Block.accept_results (hm : o = .modinv → 1 ≤ sval b.B) :
    (b.accept o).G = b.G ∧ (b.accept o).X = b.X ∧ (b.accept o).Y = b.Y ∧ (b.accept o).R = b.R := by
  rw [b.accept_start o hm]
  exact ⟨rfl, rfl, rfl, rfl⟩

theorem Block.accept_op (hm : o = .modinv → 1 ≤ sval b.B) : (b.accept o).op = o := by
  rw [b.accept_start o hm]
  rfl

/-- The results wait for FINISH: there they are still those of before the command. -/
theorem Block.HoldsGcd.results {c : Block W} (h : b.HoldsGcd o c) : c.G = b.G ∧ c.X = b.X ∧ c.Y = b.Y ∧ c.R = b.R := by
  obtain ⟨hG, hX, hY, hR⟩ := h.started.results
  obtain ⟨hG', hX', hY', hR'⟩ := b.accept_results fun ho => h.runsOn.modulus (h.op.trans ho)
  exact ⟨hG.trans hG', hX.trans hX', hY.trans hY', hR.trans hR'⟩

/-- The fuel of `extended_gcd`, `|sval(B)|`, is enough for the engine's steps from START (40_euclid.md R105). -/
theorem Block.FinishesAfter.extendedGcd_eq {n : Nat} (hm : o = .modinv → 1 ≤ sval b.B)
    (hfin : (b.accept o).FinishesAfter n) (hn : n ≤ (sval b.B).natAbs) {c : Block W}
    (hc : (Block.engineStep)^[n] (b.accept o) = c) (hruns : c.RunsOn (sval b.A) (sval b.B)) :
    extendedGcd (sval b.A) (sval b.B) = (c.r0, c.coeffA, c.coeffB) := by
  have hloop := hfin.euclidLoop_eq hn
  rw [hc, b.accept_start o hm] at hloop
  rw [extendedGcd_of_loop hloop, ← hruns.sa, ← hruns.sb]
  rfl

/-- An accepted command runs up to FINISH and holds the gcd there. -/
theorem Block.accept_holdsGcd (b : Block W) (o : Op) (hW : legalWidth W = true) (hm : o = .modinv → 1 ≤ sval b.B) :
    ∃ n, (b.accept o).FinishesAfter n ∧ b.HoldsGcd o ((Block.engineStep)^[n] (b.accept o)) := by
  have hruns := b.accept_runsOn o hm
  obtain ⟨n, hn, hfin⟩ := Block.exists_finishesAfter hruns.phase
  rw [b.accept_r1 o hm] at hn
  have hrunsn := hfin.zero_add.runsOn hW hruns
  exact ⟨n, hfin, {
    started := hfin.zero_add.sameButWork
    runsOn := hrunsn
    r1 := hfin.iterate_self.r1_eq_zero
    op := hfin.zero_add.sameButWork.op.trans (b.accept_op hm)
    gcd := hfin.extendedGcd_eq hm hn rfl hrunsn }⟩

end Block

/-- A command accepted in IDLE finishes, under every interleaving, with what the engine alone leaves, up to the host's
registers and the overrun flag. -/
theorem accept_finishesWith {s : State} {op : Op} (hW : legalWidth s.W = true) (hfree : s.NoReset)
    (hm : op = .modinv → 1 ≤ sval s.blk.B) :
    ∃ c, s.blk.HoldsGcd op c ∧ (s.withBlk (s.blk.accept op)).FinishesWith (·.Carries c.finish) := by
  obtain ⟨n, hfin, hholds⟩ := s.blk.accept_holdsGcd op hW hm
  have hcarries := (s.withBlk (s.blk.accept op)).carries_self hfree
  exact ⟨_, hholds, hfin.iterate_succ ▸ hcarries.finishesWith hW hfin⟩

/-- Settles O45: at FINISH the remainder and coefficients are the values of `extended_gcd`, and none is narrowed. -/
theorem egcdRefinesExtendedGcd : Obligations.EgcdRefinesExtendedGcd := by
  unfold Obligations.EgcdRefinesExtendedGcd
  intro s hW hfree hidle
  refine ⟨_, exec_egcd_idle s hidle, ?_⟩
  obtain ⟨c, hholds, hfinishes⟩ := accept_finishesWith (op := .egcd) hW hfree nofun
  refine hfinishes.mono fun t ht => ?_
  obtain ⟨d, e, rfl, ⟨A, B, IE, OVR, rfl⟩, -⟩ := ht
  have hruns := hholds.runsOn
  obtain ⟨-, -, -, hR⟩ := hholds.results
  have hfin := c.finish_of_egcd hholds.op
  have hvalues := egcdFinishesWithGcdAndBezout s.W c _ _ hW hruns hholds.op hholds.r1
  rw [c.engineStep_finish hruns.phase hholds.r1, hfin] at hvalues
  obtain ⟨hgcd, hbezout, -⟩ := hvalues
  have hG : (uval (bitsW s.W c.r0) : Int) = c.r0 := uval_bitsW_of_le hW hruns.r0_nonneg hruns.fits_r0.2
  have hX := sval_bitsW_of_absVal_le hW hruns.absVal_coeffA_le
  have hY := sval_bitsW_of_absVal_le hW hruns.absVal_coeffB_le
  rw [hholds.gcd, hfin]
  exact ⟨rfl, hG, hX, hY, hgcd, hbezout, congrArg uval hR⟩

/-- Settles O46: at FINISH the remainder is the common divisor and the coefficient that of `extended_gcd`, so MODINV
writes the value of `mod_inverse` exactly when there is one. -/
theorem modinvRefinesModInverse : Obligations.ModinvRefinesModInverse := by
  unfold Obligations.ModinvRefinesModInverse
  intro s hW hfree hidle hm
  refine ⟨_, exec_modinv_idle s hidle, ?_⟩
  obtain ⟨c, hholds, hfinishes⟩ := accept_finishesWith (op := .modinv) hW hfree fun _ => hm
  refine hfinishes.mono fun t ht => ?_
  obtain ⟨d, e, rfl, ⟨A, B, IE, OVR, rfl⟩, -⟩ := ht
  have hruns := hholds.runsOn
  obtain ⟨hG, hX, hY, hR⟩ := hholds.results
  rw [← c.engineStep_finish hruns.phase hholds.r1]
  rcases hruns.finish_modinv_cases hholds.op hholds.r1 with ⟨hgcd, -, hfin⟩ | ⟨hgcd, hfin⟩
  · have hinverse := modInverse_of_gcd_eq_one hgcd
    have hvalue := hruns.uval_inverse hW hholds.op
    have hunique := modinvFinishesWithTheUniqueInverse s.W c _ _ hW hruns hholds.op hholds.r1 (hfin ▸ rfl)
    rw [hfin] at hunique ⊢
    rw [hinverse, hholds.gcd]
    obtain ⟨hlt, hmul, -⟩ := hunique
    refine ⟨fun r hr => ⟨rfl, hvalue.trans (Option.some.inj hr)⟩, nofun, iff_of_true hgcd rfl, fun _ => ⟨hlt, hmul⟩, ?_⟩
    exact ⟨congrArg uval hG, congrArg uval hX, congrArg uval hY⟩
  · rw [modInverse_of_gcd_ne_one hgcd, hfin]
    refine ⟨nofun, fun _ => ⟨rfl, congrArg uval hR⟩, iff_of_false hgcd nofun, fun h => absurd h hgcd, ?_⟩
    exact ⟨congrArg uval hG, congrArg uval hX, congrArg uval hY⟩

end Sys2Proof.Machine
end

section
/-! PROOFS. The outcome of EGCD and MODINV is a function of the latched operands (60_exceptions.md R172): the engine
reads nothing else, and what it writes at FINISH is worked out from its working registers. -/

namespace Sys2Proof.Machine

/-- `c` is `b` up to the registers the engine never reads: the operands, the results, IE and the overrun flag. -/
def Block.SameEngine {W : Nat} (b c : Block W) : Prop :=
  ∃ A B G X Y R IE OVR, c = { b with A := A, B := B, G := G, X := X, Y := Y, R := R, IE := IE, OVR := OVR }

/-- What a command `o` accepted in `b` has left in `p` after its FINISH. -/
structure Block.Outcome {W : Nat} (b : Block W) (o : Op) (p : Block W) : Prop where
  egcd : o = .egcd → p.G = bitsW W p.r0 ∧ p.X = bitsW W p.coeffA ∧ p.Y = bitsW W p.coeffB ∧ p.R = b.R
  modinv : o = .modinv → p.G = b.G ∧ p.X = b.X ∧ p.Y = b.Y
  inverse : o = .modinv → p.ERR = .none → p.R = bitsW W (fmod p.coeffA (sval p.mreg))
  failure : p.ERR ≠ .none → p.R = b.R

section Block
variable {W : Nat} {b c : Block W} {o : Op}

/-- FINISH takes its branch and its outcome from what the two blocks share. -/
theorem Block.SameEngine.finish (h : b.SameEngine c) : b.finish.SameEngine c.finish := by
  obtain ⟨A, B, G, X, Y, R, IE, OVR, rfl⟩ := h
  rcases b.finish_cases with ⟨hop, hfin⟩ | ⟨hop, hg, hfin⟩ | ⟨hop, hg, hfin⟩ <;> rw [hfin]
  · exact ⟨_, _, _, _, _, _, _, _, Block.finish_of_egcd _ hop⟩
  · exact ⟨_, _, _, _, _, _, _, _, Block.finish_of_inverse _ hop hg⟩
  · exact ⟨_, _, _, _, _, _, _, _, Block.finish_of_noInverse _ hop hg⟩

theorem Block.SameEngine.iter (h : b.SameEngine c) : b.iter.SameEngine c.iter := by
  obtain ⟨_, _, _, _, _, _, _, _, rfl⟩ := h
  exact ⟨_, _, _, _, _, _, _, _, rfl⟩

theorem Block.SameEngine.phase_r1 (h : b.SameEngine c) : c.phase = b.phase ∧ c.r1 = b.r1 := by
  obtain ⟨_, _, _, _, _, _, _, _, rfl⟩ := h
  exact ⟨rfl, rfl⟩

theorem Block.SameEngine.engineStep (h : b.SameEngine c) : b.engineStep.SameEngine c.engineStep := by
  obtain ⟨hphase, hr⟩ := h.phase_r1
  rcases b.engineStep_cases with ⟨hidle, hstep⟩ | ⟨hrun, hr1, hstep⟩ | ⟨hrun, hr1, hstep⟩ <;> rw [hstep]
  · rwa [c.engineStep_idle (hphase.trans hidle)]
  · rw [c.engineStep_iter (hphase.trans hrun) (hr ▸ hr1)]
    exact h.iter
  · rw [c.engineStep_finish (hphase.trans hrun) (hr.trans hr1)]
    exact h.finish

theorem Block.SameEngine.iterate (h : b.SameEngine c) (n : Nat) :
    ((Block.engineStep)^[n] b).SameEngine ((Block.engineStep)^[n] c) := by
  induction n generalizing b c with
  | zero => exact h
  | succ n ih => exact ih h.engineStep

/-- START latches the operands and sets up the rest, so two starts on the same operands agree (40_euclid.md R101). -/
theorem Block.accept_sameEngine (hm : o = .modinv → 1 ≤ sval b.B) (hA : b.A = c.A) (hB : b.B = c.B) :
    (b.accept o).SameEngine (c.accept o) := by
  rw [b.accept_start o hm, c.accept_start o (hB ▸ hm), hA, hB]
  exact ⟨_, _, _, _, _, _, _, _, rfl⟩

/-- FINISH of a command whose results have waited since `b`. -/
theorem Block.finish_outcome (hop : c.op = o) (hresults : c.G = b.G ∧ c.X = b.X ∧ c.Y = b.Y ∧ c.R = b.R) :
    b.Outcome o c.finish := by
  obtain ⟨hG, hX, hY, hR⟩ := hresults
  subst hop
  rcases c.finish_cases with ⟨ho, hfin⟩ | ⟨ho, -, hfin⟩ | ⟨ho, -, hfin⟩ <;> rw [ho, hfin]
  · exact ⟨fun _ => ⟨rfl, rfl, rfl, hR⟩, nofun, nofun, fun h => absurd rfl h⟩
  · exact ⟨nofun, fun _ => ⟨hG, hX, hY⟩, fun _ _ => rfl, fun h => absurd rfl h⟩
  · exact ⟨nofun, fun _ => ⟨hG, hX, hY⟩, nofun, fun _ => hR⟩

/-- An accepted command either still runs with ERR = NONE, or has left its outcome. -/
theorem Block.iterate_accept_cases (hm : o = .modinv → 1 ≤ sval b.B) (n : Nat) :
    (((Block.engineStep)^[n] (b.accept o)).phase = .run ∧ ((Block.engineStep)^[n] (b.accept o)).ERR = .none) ∨
    b.Outcome o ((Block.engineStep)^[n] (b.accept o)) := by
  have hruns := b.accept_runsOn o hm
  obtain ⟨k, -, hfin⟩ := Block.exists_finishesAfter hruns.phase
  by_cases hn : n ≤ k
  · obtain ⟨j, rfl⟩ := Nat.exists_eq_add_of_le' hn
    obtain ⟨_, _, _, _, _, _, hwork⟩ := hfin.sameButWork
    exact .inl (hwork ▸ ⟨hruns.phase, hruns.err⟩)
  · obtain ⟨j, rfl⟩ : ∃ j, n = j + (k + 1) := ⟨n - k - 1, by omega⟩
    have hwork := hfin.zero_add.sameButWork
    obtain ⟨hG, hX, hY, hR⟩ := hwork.results
    obtain ⟨hG', hX', hY', hR'⟩ := b.accept_results hm
    rw [Function.iterate_add_apply, hfin.iterate_succ, Block.engineStep_iterate_idle (Block.finish_phase _)]
    exact .inr (Block.finish_outcome (hwork.op.trans (b.accept_op hm))
      ⟨hG.trans hG', hX.trans hX', hY.trans hY', hR.trans hR'⟩)

/-- A command that has finished has left its outcome. -/
theorem Block.iterate_accept_outcome (hm : o = .modinv → 1 ≤ sval b.B) {n : Nat}
    (hidle : ((Block.engineStep)^[n] (b.accept o)).phase = .idle) :
    b.Outcome o ((Block.engineStep)^[n] (b.accept o)) := by
  rcases b.iterate_accept_cases hm n with ⟨hrun, -⟩ | houtcome
  · exact nomatch hrun.symm.trans hidle
  · exact houtcome

end Block

/-- Settles O22: the two runs agree on all that the engine reads, and what FINISH writes is worked out from that. -/
theorem outcomeDependsOnlyOnTheOperands : Obligations.OutcomeDependsOnlyOnTheOperands := by
  unfold Obligations.OutcomeDependsOnlyOnTheOperands
  intro W n b c op hm hA hB
  have hmc : op = .modinv → 1 ≤ sval c.B := hB ▸ hm
  have hp := b.iterate_accept_cases hm n
  have hq := c.iterate_accept_cases hmc n
  have hpidle := Block.iterate_accept_outcome hm (n := n)
  have hqidle := Block.iterate_accept_outcome hmc (n := n)
  obtain ⟨A, B, G, X, Y, R, IE, OVR, hsame⟩ := (Block.accept_sameEngine hm hA hB).iterate n
  generalize (Block.engineStep)^[n] (b.accept op) = p at *
  generalize (Block.engineStep)^[n] (c.accept op) = q at *
  subst hsame
  refine ⟨rfl, rfl, rfl, fun hidle hop => ?_, fun hidle hop herr => ?_, fun hidle => (hpidle hidle).modinv,
    fun herr => ?_⟩
  · obtain ⟨hG, hX, hY, hR⟩ := (hpidle hidle).egcd hop
    obtain ⟨hG', hX', hY', hR'⟩ := (hqidle hidle).egcd hop
    exact ⟨hG.trans hG'.symm, hX.trans hX'.symm, hY.trans hY'.symm, hR, hR'⟩
  · exact ((hpidle hidle).inverse hop herr).trans ((hqidle hidle).inverse hop herr).symm
  · have hpfail := hp.resolve_left fun h => herr h.2
    have hqfail := hq.resolve_left fun h => herr h.2
    exact ⟨hpfail.failure herr, hqfail.failure herr⟩

end Sys2Proof.Machine
end
